-- ==== Sys2Proof/Word.lean ====
section
/-! DEFINITION. The plain types every other file uses: samples, wavetable codes, the shift register, slices, channels, agents. -/

namespace Sys2Proof

/-- The numeric domain of parameters and samples: exact rationals (00_scope.md R9, decision D3). -/
abbrev Sample := Rat

/-- A wavetable entry, "4-bit codes (0–15)" (00_scope.md R11). -/
abbrev Code := BitVec 4

/-- A wavetable: "exactly 32 ordered 4-bit codes" (00_scope.md R11, 42_wavetable.md R141). -/
abbrev Wavetable := Vector Code 32

/-- One packed payload word of a WLOAD (20_memory.md R52, 30_encoding.md R76). -/
abbrev PackedWord := BitVec 32

/-- The noise generator's 15-bit shift register (00_scope.md R10, 43_noise.md R172). -/
abbrev ShiftReg := BitVec 15

/-- A destination slice: `len` elements of the sample memory from address `base` on (20_memory.md R53). -/
structure Slice where
  base : Nat
  len  : Nat
deriving DecidableEq, Repr

/-- The three generators (10_state.md R20), with the letters P, W and N of 30_encoding.md R82. -/
inductive Channel where
  | pulse
  | wave
  | noise
deriving DecidableEq, Repr

/-- The two agents that issue operations (10_state.md R20, 60_exceptions.md R237). -/
inductive Agent where
  | host
  | ctl
deriving DecidableEq, Repr

end Sys2Proof
end

