-- ==== Sys2Proof/Config.lean ====
section
/-! DEFINITION. The implementation parameters of 00_scope.md section 4: the open sample rate and the named policy constants. -/

namespace Sys2Proof.Config

/-- `SAMPLE_RATE`, "a positive integer, a configuration constant of a session" (00_scope.md R7, D2). The spec leaves it
OPEN, so it has no body: nothing in Lean can evaluate it (log 5). -/
opaque sampleRate : ℕ+

/-- `TRIGGER_THRESHOLD`: `enabled` is `trigger > 1/2` (00_scope.md R12). -/
def triggerThreshold : Sample := 1 / 2

/-- The two polarities that the source's revisions show for the noise `width` threshold (00_scope.md R13). -/
inductive NoiseShortWhen where
  | widthGtHalf
  | widthLtHalf
deriving DecidableEq, Repr

/-- `NOISE_SHORT_WHEN = WIDTH_GT_HALF` (00_scope.md R13, D4; log 7). -/
def noiseShortWhen : NoiseShortWhen := .widthGtHalf

/-- The source's two options for what disabling the noise channel does to the shift register (00_scope.md R14). -/
inductive NoiseDisablePolicy where
  | clear
  | retain
deriving DecidableEq, Repr

/-- `NOISE_DISABLE_POLICY = RETAIN` (00_scope.md R14, D5; log 7). -/
def noiseDisablePolicy : NoiseDisablePolicy := .retain

/-- `DEFAULT_GAIN = 0`, the reset value of every gain register (00_scope.md R15, D6; log 7). -/
def defaultGain : Sample := 0

end Sys2Proof.Config
end

