-- ==== Sys2Proof/Syntax.lean ====
section
/-! DEFINITION. The operations of the core: one constructor per row of spec/opcode_table.json (30_encoding.md R86). -/

namespace Sys2Proof

/-- A host-invocable operation with its operands (30_encoding.md R85, R86). The codes of a WPOST are loosely typed as
naturals, so that a code above 15 (violation V6) can be said and refused (R89). -/
inductive Instr where
  /-- `CREATE.P`, byte `0x10` (44_control_system.md R200) -/
  | createP
  /-- `CREATE.W`, byte `0x14` (R201) -/
  | createW
  /-- `CREATE.N`, byte `0x18` (R202) -/
  | createN
  /-- `DESTROY.P`, byte `0x20` (R203) -/
  | destroyP
  /-- `DESTROY.W`, byte `0x24` (R204) -/
  | destroyW
  /-- `DESTROY.N`, byte `0x28` (R205) -/
  | destroyN
  /-- `SETP.P.TRIGGER v`, byte `0x30` (R206) -/
  | setpPTrigger (v : Sample)
  /-- `SETP.P.GAIN v`, byte `0x31` (R207) -/
  | setpPGain (v : Sample)
  /-- `SETP.P.FREQ v`, byte `0x32` (R208) -/
  | setpPFreq (v : Sample)
  /-- `SETP.P.DUTY v`, byte `0x33` (R209) -/
  | setpPDuty (v : Sample)
  /-- `SETP.W.TRIGGER v`, byte `0x34` (R210) -/
  | setpWTrigger (v : Sample)
  /-- `SETP.W.GAIN v`, byte `0x35` (R211) -/
  | setpWGain (v : Sample)
  /-- `SETP.W.FREQ v`, byte `0x36` (R212) -/
  | setpWFreq (v : Sample)
  /-- `SETP.N.TRIGGER v`, byte `0x38` (R213) -/
  | setpNTrigger (v : Sample)
  /-- `SETP.N.GAIN v`, byte `0x39` (R214) -/
  | setpNGain (v : Sample)
  /-- `SETP.N.FREQ v`, byte `0x3A` (R215) -/
  | setpNFreq (v : Sample)
  /-- `SETP.N.WIDTH v`, byte `0x3B` (R216) -/
  | setpNWidth (v : Sample)
  /-- `RENDER.P F, DST`, byte `0x40` (41_pulse.md R126) -/
  | renderP (frames : Nat) (dst : Slice)
  /-- `RENDER.W F, DST`, byte `0x44` (42_wavetable.md R149) -/
  | renderW (frames : Nat) (dst : Slice)
  /-- `RENDER.N F, DST`, byte `0x48` (43_noise.md R182) -/
  | renderN (frames : Nat) (dst : Slice)
  /-- `WLOAD w0, …, w7`, byte `0x54` (R218) -/
  | wload (words : Vector PackedWord 8)
  /-- `WPOST t0, …, t31`, byte `0x64` (R219) -/
  | wpost (codes : Vector Nat 32)
deriving DecidableEq, Repr

/-- The generator an operation acts on, the `ch` field of its command byte (30_encoding.md R82). -/
def Instr.channel : Instr → Channel
  | .createP | .destroyP | .setpPTrigger _ | .setpPGain _ | .setpPFreq _ | .setpPDuty _ | .renderP _ _ => .pulse
  | .createW | .destroyW | .setpWTrigger _ | .setpWGain _ | .setpWFreq _ | .renderW _ _ | .wload _ | .wpost _ => .wave
  | .createN | .destroyN | .setpNTrigger _ | .setpNGain _ | .setpNFreq _ | .setpNWidth _ | .renderN _ _ => .noise

/-- The agent that issues an operation, the column "agent" of 30_encoding.md R86. -/
def Instr.agent : Instr → Agent
  | .wload _ | .wpost _ => .ctl
  | .createP | .createW | .createN | .destroyP | .destroyW | .destroyN
  | .setpPTrigger _ | .setpPGain _ | .setpPFreq _ | .setpPDuty _
  | .setpWTrigger _ | .setpWGain _ | .setpWFreq _
  | .setpNTrigger _ | .setpNGain _ | .setpNFreq _ | .setpNWidth _
  | .renderP _ _ | .renderW _ _ | .renderN _ _ => .host

end Sys2Proof
end

