-- ==== Sys2Proof/WellFormed.lean ====
section
/-! DEFINITION. Which operations have operands of the shape the spec asks for: slices long enough (V8) and codes of four bits (V6). -/

namespace Sys2Proof

/-- "The slice must have at least `F` elements" (20_memory.md R53; violation V8 otherwise). -/
def Slice.holds (d : Slice) (frames : Nat) : Bool := decide (frames ≤ d.len)

/-- "each ∈[0,15]" (30_encoding.md R80, R89; violation V6 otherwise). -/
def codesFit (codes : Vector Nat 32) : Bool := codes.toList.all fun n => decide (n ≤ 15)

/-- An operation whose operands are well typed; the others are refused by name (60_exceptions.md R230). -/
def Instr.wellFormed : Instr → Bool
  | .renderP frames dst | .renderW frames dst | .renderN frames dst => dst.holds frames
  | .wpost codes => codesFit codes
  | .createP | .createW | .createN | .destroyP | .destroyW | .destroyN
  | .setpPTrigger _ | .setpPGain _ | .setpPFreq _ | .setpPDuty _
  | .setpWTrigger _ | .setpWGain _ | .setpWFreq _
  | .setpNTrigger _ | .setpNGain _ | .setpNFreq _ | .setpNWidth _
  | .wload _ => true

end Sys2Proof
end

