-- ==== Sys2Proof/Decode.lean ====
section
/-! DEFINITION. Commands, their decoding (30_encoding.md R81 to R91) and encoding (R86), and the pseudo-operations of R94. -/

namespace Sys2Proof

/-- The operands that travel beside a command byte (30_encoding.md R85). -/
inductive Operands where
  /-- CREATE and DESTROY: none -/
  | empty
  /-- SETP: one rational `v` -/
  | value (v : Sample)
  /-- RENDER: a natural `F` and a destination slice -/
  | block (frames : Nat) (dst : Slice)
  /-- WLOAD: eight 32-bit words -/
  | words (words : Vector PackedWord 8)
  /-- WPOST: thirty-two codes -/
  | codes (codes : Vector Nat 32)
deriving DecidableEq, Repr

/-- "A command is one byte `cmd[7:0]` followed by the operands its opcode calls for" (30_encoding.md R81). -/
structure Command where
  byte     : BitVec 8
  operands : Operands
deriving DecidableEq, Repr

/-- Why a command is not an operation. -/
inductive DecodeError where
  /-- the byte is none of the twenty-two of R86 (violation V10, 30_encoding.md R87) -/
  | illegalCommand (byte : BitVec 8)
  /-- the byte is legal and the operands are not those its opcode calls for (R81, R85; log 8) -/
  | operandsMismatch (byte : BitVec 8)
deriving DecidableEq, Repr

/-- The field `opc`, bits 7:4 (30_encoding.md R81). -/
def opcField (byte : BitVec 8) : Nat := (byte.extractLsb' 4 4).toNat

/-- The field `ch`, bits 3:2. -/
def chField (byte : BitVec 8) : Nat := (byte.extractLsb' 2 2).toNat

/-- The field `p`, bits 1:0. -/
def pField (byte : BitVec 8) : Nat := (byte.extractLsb' 0 2).toNat

/-- A legal command byte, by the fields (30_encoding.md R82 to R84, R87). -/
def legalByte (byte : BitVec 8) : Bool :=
  match opcField byte with
  | 1 | 2 | 4 => chField byte != 3 && pField byte == 0
  | 3 => match chField byte with
    | 0 | 2 => true
    | 1 => pField byte != 3
    | _ => false
  | 5 | 6 => chField byte == 1 && pField byte == 0
  | _ => false

/-- Decode a command from the fields of its byte: total, and every rejection by name (30_encoding.md R82 to R85, R87, R91). -/
def decode (c : Command) : Except DecodeError Instr :=
  if !legalByte c.byte then .error (.illegalCommand c.byte) else
    match opcField c.byte, chField c.byte, pField c.byte, c.operands with
    | 1, 0, 0, .empty => .ok .createP
    | 1, 1, 0, .empty => .ok .createW
    | 1, 2, 0, .empty => .ok .createN
    | 2, 0, 0, .empty => .ok .destroyP
    | 2, 1, 0, .empty => .ok .destroyW
    | 2, 2, 0, .empty => .ok .destroyN
    | 3, 0, 0, .value v => .ok (.setpPTrigger v)
    | 3, 0, 1, .value v => .ok (.setpPGain v)
    | 3, 0, 2, .value v => .ok (.setpPFreq v)
    | 3, 0, 3, .value v => .ok (.setpPDuty v)
    | 3, 1, 0, .value v => .ok (.setpWTrigger v)
    | 3, 1, 1, .value v => .ok (.setpWGain v)
    | 3, 1, 2, .value v => .ok (.setpWFreq v)
    | 3, 2, 0, .value v => .ok (.setpNTrigger v)
    | 3, 2, 1, .value v => .ok (.setpNGain v)
    | 3, 2, 2, .value v => .ok (.setpNFreq v)
    | 3, 2, 3, .value v => .ok (.setpNWidth v)
    | 4, 0, 0, .block frames dst => .ok (.renderP frames dst)
    | 4, 1, 0, .block frames dst => .ok (.renderW frames dst)
    | 4, 2, 0, .block frames dst => .ok (.renderN frames dst)
    | 5, 1, 0, .words words => .ok (.wload words)
    | 6, 1, 0, .codes codes => .ok (.wpost codes)
    | _, _, _, _ => .error (.operandsMismatch c.byte)

/-- The command byte of an operation, read off the table of 30_encoding.md R86. -/
def Instr.byte : Instr → BitVec 8
  | .createP => 0x10
  | .createW => 0x14
  | .createN => 0x18
  | .destroyP => 0x20
  | .destroyW => 0x24
  | .destroyN => 0x28
  | .setpPTrigger _ => 0x30
  | .setpPGain _ => 0x31
  | .setpPFreq _ => 0x32
  | .setpPDuty _ => 0x33
  | .setpWTrigger _ => 0x34
  | .setpWGain _ => 0x35
  | .setpWFreq _ => 0x36
  | .setpNTrigger _ => 0x38
  | .setpNGain _ => 0x39
  | .setpNFreq _ => 0x3A
  | .setpNWidth _ => 0x3B
  | .renderP _ _ => 0x40
  | .renderW _ _ => 0x44
  | .renderN _ _ => 0x48
  | .wload _ => 0x54
  | .wpost _ => 0x64

/-- The operands of an operation as they travel beside its byte (30_encoding.md R85). -/
def Instr.operands : Instr → Operands
  | .createP | .createW | .createN | .destroyP | .destroyW | .destroyN => .empty
  | .setpPTrigger v | .setpPGain v | .setpPFreq v | .setpPDuty v
  | .setpWTrigger v | .setpWGain v | .setpWFreq v
  | .setpNTrigger v | .setpNGain v | .setpNFreq v | .setpNWidth v => .value v
  | .renderP frames dst | .renderW frames dst | .renderN frames dst => .block frames dst
  | .wload words => .words words
  | .wpost codes => .codes codes

/-- The command of an operation. -/
def encode (i : Instr) : Command := ⟨i.byte, i.operands⟩

/-- The twenty-two legal command bytes, in the order of the table of 30_encoding.md R86. -/
def opcodeMap : List (BitVec 8) :=
  [0x10, 0x14, 0x18, 0x20, 0x24, 0x28] ++ [0x30, 0x31, 0x32, 0x33, 0x34, 0x35, 0x36, 0x38, 0x39, 0x3A, 0x3B] ++
    [0x40, 0x44, 0x48, 0x54, 0x64]

/-- The operands of zeros that an opcode calls for; their shape is a function of `opc` alone (30_encoding.md R85, R90). -/
def zeroOperands (byte : BitVec 8) : Operands :=
  match opcField byte with
  | 3 => .value 0
  | 4 => .block 0 ⟨0, 0⟩
  | 5 => .words (Vector.replicate 8 0)
  | 6 => .codes (Vector.replicate 32 0)
  | _ => .empty

/-- The command whose byte is the low byte of a table word, with operands of zeros. -/
def tableCommand (w : Nat) : Command := ⟨BitVec.ofNat 8 w, zeroOperands (BitVec.ofNat 8 w)⟩

/-- What the decoder reads from a row of spec/opcode_table.json: every row is one byte. -/
def decodeTableWord (nbits w : Nat) : Option Instr :=
  if nbits = 8 ∧ w < 256 then
    match decode (tableCommand w) with
    | .ok i => some i
    | .error _ => none
  else none

/-- The mnemonic of an operation (30_encoding.md R86, R93). -/
def Instr.mnemonic : Instr → String
  | .createP => "CREATE.P"
  | .createW => "CREATE.W"
  | .createN => "CREATE.N"
  | .destroyP => "DESTROY.P"
  | .destroyW => "DESTROY.W"
  | .destroyN => "DESTROY.N"
  | .setpPTrigger _ => "SETP.P.TRIGGER"
  | .setpPGain _ => "SETP.P.GAIN"
  | .setpPFreq _ => "SETP.P.FREQ"
  | .setpPDuty _ => "SETP.P.DUTY"
  | .setpWTrigger _ => "SETP.W.TRIGGER"
  | .setpWGain _ => "SETP.W.GAIN"
  | .setpWFreq _ => "SETP.W.FREQ"
  | .setpNTrigger _ => "SETP.N.TRIGGER"
  | .setpNGain _ => "SETP.N.GAIN"
  | .setpNFreq _ => "SETP.N.FREQ"
  | .setpNWidth _ => "SETP.N.WIDTH"
  | .renderP _ _ => "RENDER.P"
  | .renderW _ _ => "RENDER.W"
  | .renderN _ _ => "RENDER.N"
  | .wload _ => "WLOAD"
  | .wpost _ => "WPOST"

/-- The pseudo-operation `CONFIG.P t, g, f, d` (30_encoding.md R94). -/
def configP (t g f d : Sample) : List Instr := [.setpPTrigger t, .setpPGain g, .setpPFreq f, .setpPDuty d]

/-- The pseudo-operation `CONFIG.W t, g, f` (30_encoding.md R94). -/
def configW (t g f : Sample) : List Instr := [.setpWTrigger t, .setpWGain g, .setpWFreq f]

/-- The pseudo-operation `CONFIG.N t, g, f, w` (30_encoding.md R94). -/
def configN (t g f w : Sample) : List Instr := [.setpNTrigger t, .setpNGain g, .setpNFreq f, .setpNWidth w]

/-- The pseudo-operation `BLOCK F, dP, dW, dN` (30_encoding.md R94). -/
def blockOf (frames : Nat) (dP dW dN : Slice) : List Instr :=
  [.renderP frames dP, .renderW frames dW, .renderN frames dN]

end Sys2Proof
end

