-- ==== Sys2Proof/Machine/State.lean ====
section
/-! DEFINITION. The state of the core (10_state.md), its reset value, and the reasons a step can stop. -/

namespace Sys2Proof.Machine

/-- The faults: behaviour the spec gives no result (60_exceptions.md R228, R230). -/
inductive Fault where
  /-- Violation V1. Raised by RENDER.P, RENDER.W and RENDER.N when the generator is enabled and the latched frequency is
  not positive, at the point where `period` is computed (R228). Safe: the machine stops where the hardware would go on
  with a result that the spec does not give. -/
  | frequencyNotPositive (g : Channel)
deriving DecidableEq, Repr

/-- The refusals: operations that change no state and produce no output (60_exceptions.md R230). -/
inductive Refusal where
  /-- An instruction that has no meaning yet; raised by the dispatch only. Safe. -/
  | notModelled (mnemonic : String)
  /-- Violation V10, raised by the step: the command byte is illegal (30_encoding.md R87, D30). Safe. -/
  | illegalCommand (byte : BitVec 8)
  /-- Raised by the step: a legal byte whose operands are not those its opcode calls for (R81, R85; log 8). Safe. -/
  | operandsMismatch (byte : BitVec 8)
  /-- Violation V7, raised by SETP, RENDER, WLOAD, WPOST and DESTROY: the generator is not live (D27). Safe. -/
  | notLive (g : Channel)
  /-- Violation V7, raised by CREATE: the generator is already live (D27). Safe. -/
  | alreadyLive (g : Channel)
  /-- Violation V8, raised by RENDER: the slice is shorter than `F` (20_memory.md R53, D26). Safe. -/
  | sliceTooShort (g : Channel)
  /-- Violation V6, raised by WPOST: a code above 15 (30_encoding.md R89, D24). Safe. -/
  | codeAboveFifteen
deriving DecidableEq, Repr

/-- The parameter registers of `PG` (10_state.md R25); also the fields of its snapshot latch (R28). -/
structure PulseParams where
  trigger   : Sample
  gain      : Sample
  frequency : Sample
  dutyCycle : Sample
deriving DecidableEq, Repr

/-- The parameter registers of `WG` (10_state.md R26); also the fields of its snapshot latch (R28). -/
structure WaveParams where
  trigger   : Sample
  gain      : Sample
  frequency : Sample
deriving DecidableEq, Repr

/-- The parameter registers of `NG` (10_state.md R27); also the fields of its snapshot latch (R28). -/
structure NoiseParams where
  trigger   : Sample
  gain      : Sample
  frequency : Sample
  width     : Sample
deriving DecidableEq, Repr

/-- The pulse generator `PG`: liveness (10_state.md R23), parameters (R25), snapshot (R28), enable flag (R29), phase
counter (R30). -/
structure PulseGen where
  live    : Bool
  P       : PulseParams
  S       : PulseParams
  enabled : Bool
  c       : Nat
deriving DecidableEq, Repr

/-- The wavetable generator `WG`: liveness (10_state.md R23), parameters (R26), snapshot (R28), enable flag (R29), phase
counter (R31), step index (R32), active table (R33), mailbox (R34). -/
structure WaveGen where
  live          : Bool
  P             : WaveParams
  S             : WaveParams
  enabled       : Bool
  sampleCounter : Nat
  stepIndex     : Fin 32
  table         : Wavetable
  slot          : Option Wavetable
deriving DecidableEq, Repr

/-- The noise generator `NG`: liveness (10_state.md R23), parameters (R27), snapshot (R28), enable flag (R29), tick
counter (R35), shift register (R36). -/
structure NoiseGen where
  live    : Bool
  P       : NoiseParams
  S       : NoiseParams
  enabled : Bool
  c       : Nat
  lfsr    : ShiftReg
deriving DecidableEq, Repr

/-- The sample memory that holds the destination slices (20_memory.md R53): (address, sample) pairs. -/
abbrev Memory := List (Nat × Sample)

/-- What an address that the memory does not list reads as: "assumed pre-zeroed by the host" (20_memory.md R53; log 4). -/
def Memory.unlisted : Sample := 0

/-- The canonical form: addresses strictly rising, and no entry equal to what an unlisted address reads as. -/
abbrev Memory.wf (m : Memory) : Prop :=
  m.Pairwise (fun x y => x.1 < y.1) ∧ ∀ x ∈ m, x.2 ≠ Memory.unlisted

/-- The whole state. -/
structure State where
  /-- `SAMPLE_RATE`, a configuration constant that no operation writes (00_scope.md R7, 10_state.md R21; log 5) -/
  sampleRate : ℕ+
  /-- the pulse generator `PG` -/
  pg : PulseGen
  /-- the wavetable generator `WG` -/
  wg : WaveGen
  /-- the noise generator `NG` -/
  ng : NoiseGen
  /-- the destination slices `DST`, the host's storage (20_memory.md R53; log 4) -/
  dst : Memory
  /-- the operations issued and not yet in effect, in the order they take effect (10_state.md R22; log 2) -/
  pending : List Command
deriving DecidableEq, Repr

/-- Reset values of the parameters of `PG` (10_state.md R42). -/
def PulseParams.reset : PulseParams := ⟨0, Config.defaultGain, 1, 0⟩

/-- Reset values of the parameters of `WG` (10_state.md R42). -/
def WaveParams.reset : WaveParams := ⟨0, Config.defaultGain, 1⟩

/-- Reset values of the parameters of `NG` (10_state.md R42). -/
def NoiseParams.reset : NoiseParams := ⟨0, Config.defaultGain, 1, 0⟩

/-- `PG` at its reset values and not live: "`false` before the generator is created and after it is destroyed"
(10_state.md R23, R42; log 1, log 3). -/
def PulseGen.dead : PulseGen :=
  { live := false, P := PulseParams.reset, S := PulseParams.reset, enabled := false, c := 0 }

/-- `WG` at its reset values and not live (10_state.md R23, R42; log 1, log 3). -/
def WaveGen.dead : WaveGen :=
  { live := false, P := WaveParams.reset, S := WaveParams.reset, enabled := false, sampleCounter := 0, stepIndex := 0,
    table := Vector.replicate 32 0, slot := none }

/-- `NG` at its reset values and not live (10_state.md R23, R42; log 1, log 3). -/
def NoiseGen.dead : NoiseGen :=
  { live := false, P := NoiseParams.reset, S := NoiseParams.reset, enabled := false, c := 0, lfsr := 0 }

/-- The start state at a given sample rate: no generator live, every register at its reset value, every slice zeroed. -/
def State.resetAt (rate : ℕ+) : State :=
  { sampleRate := rate, pg := PulseGen.dead, wg := WaveGen.dead, ng := NoiseGen.dead, dst := [], pending := [] }

/-- The machine right after reset: the start state of every program of the spec, "no generator live; every slice
pre-zeroed" (95_test_vectors.md part 3; 10_state.md R23, R42; log 1), at the open sample rate (log 5). -/
def State.reset : State := State.resetAt Config.sampleRate

/-- The space `PAR`: the eleven parameter registers (20_memory.md R54, 10_state.md R25 to R27). -/
inductive ParReg where
  | pTrigger
  | pGain
  | pFrequency
  | pDutyCycle
  | wTrigger
  | wGain
  | wFrequency
  | nTrigger
  | nGain
  | nFrequency
  | nWidth
deriving DecidableEq, Repr

/-- The generator a parameter register belongs to. -/
def ParReg.channel : ParReg → Channel
  | .pTrigger | .pGain | .pFrequency | .pDutyCycle => .pulse
  | .wTrigger | .wGain | .wFrequency => .wave
  | .nTrigger | .nGain | .nFrequency | .nWidth => .noise

/-- The state with another pulse generator. -/
def State.setPg (s : State) (g : PulseGen) : State := { s with pg := g }

/-- The state with another wavetable generator. -/
def State.setWg (s : State) (g : WaveGen) : State := { s with wg := g }

/-- The state with another noise generator. -/
def State.setNg (s : State) (g : NoiseGen) : State := { s with ng := g }

/-- The state with another sample memory. -/
def State.setDst (s : State) (m : Memory) : State := { s with dst := m }

/-- The state with another queue of commands. -/
def State.setPending (s : State) (q : List Command) : State := { s with pending := q }

end Sys2Proof.Machine
end

