-- ==== Sys2Proof/Machine/Flags.lean ====
section
/-! DEFINITION. The one-bit conditions of the core: the enable flag and the noise mode (10_state.md R29, R38; 30_encoding.md R71, R75). -/

namespace Sys2Proof.Machine

/-- "derived from a trigger value, threshold `> 0.5`", a strict comparison (00_scope.md R12, 30_encoding.md R71). -/
def enabledOf (trigger : Sample) : Bool := decide (trigger > Config.triggerThreshold)

/-- The noise mode: short when `width > 1/2`, under the constant `NOISE_SHORT_WHEN` (00_scope.md R13, 43_noise.md R177). -/
def shortOf (width : Sample) : Bool :=
  match Config.noiseShortWhen with
  | .widthGtHalf => decide (width > 1 / 2)
  | .widthLtHalf => decide (width < 1 / 2)

end Sys2Proof.Machine
end

