-- ==== Sys2Proof/Machine/Operands.lean ====
section
/-! DEFINITION. The values computed from operands and snapshots: thresholds, amplitudes, wavetable codes, shift-register ticks. -/

namespace Sys2Proof.Machine

/-- `period = floor(SAMPLE_RATE / frequency)`, exact division followed by floor (41_pulse.md R121). Only evaluated for a
positive frequency (60_exceptions.md R228), where the floor is a natural number. -/
def period (rate : ℕ+) (frequency : Sample) : Nat := (((rate : Nat) : Sample) / frequency).floor.toNat

/-- `highSamples = floor(period * dutyCycle)` (41_pulse.md R122); an integer, since a duty cycle below 0 (V5) is computed
by the formula too (60_exceptions.md R229). -/
def highSamples (period : Nat) (dutyCycle : Sample) : Int := ((period : Sample) * dutyCycle).floor

/-- `stepSamples = floor(period / 32)` (42_wavetable.md R145). -/
def stepSamples (period : Nat) : Nat := period / 32

/-- The amplitude of a code, `(15 - 2n) / 15` (30_encoding.md R78). -/
def amplitude (code : Code) : Sample := (15 - 2 * (code.toNat : Sample)) / 15

/-- The sign factor of a one-bit source: "a logical 1 is the negative level" (30_encoding.md R79). -/
def signFactor (bit : Bool) : Sample := if bit then -1 else 1

/-- Entry `i` of UNPACK, from word `i div 4` (30_encoding.md R77). -/
def unpackEntry (word : PackedWord) (i : Nat) : Code :=
  let byteOffset := (i % 4) / 2
  let nibbleShift := if i % 2 = 0 then 4 else 0
  let byte := (word >>> (byteOffset * 8)) &&& 0xFF
  ((byte >>> nibbleShift) &&& 0xF).setWidth 4

/-- UNPACK, a pure function of the eight words (30_encoding.md R77, 44_control_system.md R218). -/
def unpack (words : Vector PackedWord 8) : Wavetable :=
  Vector.ofFn fun i => unpackEntry (words.get (Fin.ofNat 8 (i.val / 4))) i.val

/-- The table of a WPOST; meaningful when `codesFit` holds (30_encoding.md R80, R89). -/
def tableOfCodes (codes : Vector Nat 32) : Wavetable := codes.map (BitVec.ofNat 4)

/-- The feedback bit, the XNOR of bits 0 and 1 (43_noise.md R174). -/
def feedback (x : ShiftReg) : Bool := x.getLsbD 0 == x.getLsbD 1

/-- LFSR.TICK.LONG: `{ fb, lfsr[14:1] }` (43_noise.md R175). -/
def tickLong (x : ShiftReg) : ShiftReg := BitVec.ofBool (feedback x) ++ x.extractLsb' 1 14

/-- LFSR.TICK.SHORT: `{ fb, lfsr[14:8], fb, lfsr[6:1] }` (43_noise.md R176). -/
def tickShort (x : ShiftReg) : ShiftReg :=
  BitVec.ofBool (feedback x) ++ x.extractLsb' 8 7 ++ BitVec.ofBool (feedback x) ++ x.extractLsb' 1 6

/-- LFSR.TICK in the form the mode selects (43_noise.md R177, R179). -/
def lfsrTick (short : Bool) (x : ShiftReg) : ShiftReg := if short then tickShort x else tickLong x

end Sys2Proof.Machine
end

