-- ==== Sys2Proof/Machine/Ops.lean ====
section
/-! DEFINITION. The operations over storage and registers that the meanings share. There is no exception entry or return
among them: the core takes no trap and saves nothing (60_exceptions.md R225, R234, R235). -/

namespace Sys2Proof.Machine

/-- What a meaning answers. -/
abbrev Result := Host.Outcome State Fault Refusal

/-- One sample of the sample memory. -/
def Memory.read : Memory → Nat → Sample
  | [], _ => Memory.unlisted
  | (b, w) :: m, a => if a = b then w else Memory.read m a

/-- `MemWrite(DST, n, 1, sample)`: overwrite one element (20_memory.md R53, 40_block_datapath.md R109). Writing what an
unlisted address reads as removes the entry. -/
def Memory.write : Memory → Nat → Sample → Memory
  | [], a, v => if v = Memory.unlisted then [] else [(a, v)]
  | (b, w) :: m, a, v =>
    if a < b then (if v = Memory.unlisted then (b, w) :: m else (a, v) :: (b, w) :: m)
    else if a = b then (if v = Memory.unlisted then m else (a, v) :: m)
    else (b, w) :: Memory.write m a v

/-- The liveness bit of a generator (10_state.md R23). -/
def State.live (s : State) : Channel → Bool
  | .pulse => s.pg.live
  | .wave => s.wg.live
  | .noise => s.ng.live

/-- "Requires `G.live`", else violation V7 (44_control_system.md R203 to R219). -/
def whenLive (g : Channel) (s : State) (k : Result) : Result :=
  if s.live g then k else .refused (.notLive g)

/-- "Requires `G.live = false`", else violation V7 (44_control_system.md R200 to R202). -/
def whenNotLive (g : Channel) (s : State) (k : Result) : Result :=
  if s.live g then .refused (.alreadyLive g) else k

/-- A parameter register's value. The core has no such read-out (10_state.md R24); statements use it. -/
def parRead (s : State) : ParReg → Sample
  | .pTrigger => s.pg.P.trigger
  | .pGain => s.pg.P.gain
  | .pFrequency => s.pg.P.frequency
  | .pDutyCycle => s.pg.P.dutyCycle
  | .wTrigger => s.wg.P.trigger
  | .wGain => s.wg.P.gain
  | .wFrequency => s.wg.P.frequency
  | .nTrigger => s.ng.P.trigger
  | .nGain => s.ng.P.gain
  | .nFrequency => s.ng.P.frequency
  | .nWidth => s.ng.P.width

/-- `MemWrite(PAR, (ch, p), 1, v)` (20_memory.md R54, 44_control_system.md R217). -/
def parWrite (s : State) (r : ParReg) (v : Sample) : State :=
  match r with
  | .pTrigger => s.setPg { s.pg with P := { s.pg.P with trigger := v } }
  | .pGain => s.setPg { s.pg with P := { s.pg.P with gain := v } }
  | .pFrequency => s.setPg { s.pg with P := { s.pg.P with frequency := v } }
  | .pDutyCycle => s.setPg { s.pg with P := { s.pg.P with dutyCycle := v } }
  | .wTrigger => s.setWg { s.wg with P := { s.wg.P with trigger := v } }
  | .wGain => s.setWg { s.wg with P := { s.wg.P with gain := v } }
  | .wFrequency => s.setWg { s.wg with P := { s.wg.P with frequency := v } }
  | .nTrigger => s.setNg { s.ng with P := { s.ng.P with trigger := v } }
  | .nGain => s.setNg { s.ng with P := { s.ng.P with gain := v } }
  | .nFrequency => s.setNg { s.ng with P := { s.ng.P with frequency := v } }
  | .nWidth => s.setNg { s.ng with P := { s.ng.P with width := v } }

/-- Common to every SETP: write the register of a live generator, unchecked (44_control_system.md R217). -/
def setp (r : ParReg) (v : Sample) (s : State) : Result :=
  whenLive r.channel s (.next (parWrite s r v))

/-- POST: put a whole table into the mailbox, overwriting what it held (44_control_system.md R220). -/
def WaveGen.post (g : WaveGen) (t : Wavetable) : WaveGen := { g with slot := some t }

/-- SWAP: take the waiting table, if any, and empty the mailbox (42_wavetable.md R151, R152). -/
def WaveGen.swap (g : WaveGen) : WaveGen :=
  match g.slot with
  | some t => { g with table := t, slot := none }
  | none => g

/-- The rounding hook of 00_scope.md R9 and 40_block_datapath.md R108: the identity, the spec's default (log 6). -/
def roundSample (q : Sample) : Sample := q

/-- `MIX(s, g) = ROUND(s * g)` (40_block_datapath.md R108). -/
def mix (factor gain : Sample) : Sample := roundSample (factor * gain)

/-- The frame loop of a RENDER (40_block_datapath.md R104, R109): `n` frames in increasing order, each written to the
next element from address `a` on. `frame` is the generator's frame micro-operation: it answers the factor of this frame
and the generator after it. -/
def renderLoop {γ : Type} (frame : γ → Sample × γ) (gain : Sample) : Nat → Nat → γ → Memory → γ × Memory
  | 0, _, g, m => (g, m)
  | n + 1, a, g, m => renderLoop frame gain n (a + 1) (frame g).2 (Memory.write m a (mix (frame g).1 gain))

/-- Steps 4 and 5 of a RENDER (40_block_datapath.md R100): nothing for a disabled generator (R103), the fault of V1 where
`period` has no value (60_exceptions.md R228), else the frame loop. -/
def renderFrames {γ : Type} (ch : Channel) (enabled : Bool) (frequency gain : Sample) (frame : γ → Sample × γ)
    (frames : Nat) (dst : Slice) (g : γ) (m : Memory) : Except Fault (γ × Memory) :=
  if enabled then
    if frequency ≤ 0 then .error (.frequencyNotPositive ch) else .ok (renderLoop frame gain frames dst.base g m)
  else .ok (g, m)

/-- Common to every RENDER: "require G.live" and a slice of at least `F` elements (40_block_datapath.md R100, 20_memory.md
R53), else V7 or V8 with no state change; then the block, whose generator and memory `put` stores. -/
def renderBlock {γ : Type} (ch : Channel) (frames : Nat) (dst : Slice) (s : State) (put : γ → State)
    (block : Except Fault (γ × Memory)) : Result :=
  whenLive ch s <|
    if dst.holds frames then
      match block with
      | .ok (g, m) => .next ((put g).setDst m)
      | .error e => .fault e
    else .refused (.sliceTooShort ch)

/-- The next operation to take effect, with the state it acts on (10_state.md R22; log 2). -/
def fetch (s : State) : Option (Command × State) :=
  match s.pending with
  | [] => none
  | c :: rest => some (c, s.setPending rest)

/-- The name a command that is no operation is refused under (30_encoding.md R87; log 8). -/
def refusalOf : DecodeError → Refusal
  | .illegalCommand byte => .illegalCommand byte
  | .operandsMismatch byte => .operandsMismatch byte

end Sys2Proof.Machine
end

