-- ==== Sys2Proof/Machine/Lifecycle.lean ====
section
/-! DEFINITION. CREATE and DESTROY (44_control_system.md R200 to R205). -/

namespace Sys2Proof.Machine

/-- `CREATE.P` (44_control_system.md R200). -/
def execCreateP (s : State) : Result :=
  whenNotLive .pulse s <| .next <| s.setPg
    { live := true, P := PulseParams.reset, S := PulseParams.reset, enabled := false, c := 0 }

/-- `CREATE.W` (44_control_system.md R201). -/
def execCreateW (s : State) : Result :=
  whenNotLive .wave s <| .next <| s.setWg
    { live := true, P := WaveParams.reset, S := WaveParams.reset, enabled := false, sampleCounter := 0, stepIndex := 0,
      table := Vector.replicate 32 0, slot := none }

/-- `CREATE.N` (44_control_system.md R202). -/
def execCreateN (s : State) : Result :=
  whenNotLive .noise s <| .next <| s.setNg
    { live := true, P := NoiseParams.reset, S := NoiseParams.reset, enabled := false, c := 0, lfsr := 0 }

/-- `DESTROY.P`: "every other item of `PG` ceases to exist" (44_control_system.md R203; log 3). -/
def execDestroyP (s : State) : Result := whenLive .pulse s <| .next <| s.setPg PulseGen.dead

/-- `DESTROY.W`, which also drops an undelivered table (44_control_system.md R204; log 3). -/
def execDestroyW (s : State) : Result := whenLive .wave s <| .next <| s.setWg WaveGen.dead

/-- `DESTROY.N` (44_control_system.md R205; log 3). -/
def execDestroyN (s : State) : Result := whenLive .noise s <| .next <| s.setNg NoiseGen.dead

end Sys2Proof.Machine
end

