-- ==== Sys2Proof/Machine/Noise.lean ====
section
/-! DEFINITION. The noise generator: NOISE.FRAME and RENDER.N (43_noise.md). -/

namespace Sys2Proof.Machine

/-- What a disabled block does to the generator, under `NOISE_DISABLE_POLICY`: nothing, since it is `RETAIN` (00_scope.md
R14, 43_noise.md R183). -/
def NoiseGen.onDisabled (g : NoiseGen) : NoiseGen :=
  match Config.noiseDisablePolicy with
  | .retain => g
  | .clear => { g with lfsr := 0 }

/-- Steps 1 and 3 of RENDER.N: SNAP, then the enable test (40_block_datapath.md R101, R102). -/
def NoiseGen.enter (g : NoiseGen) : NoiseGen :=
  let g' : NoiseGen := { g with S := g.P, enabled := enabledOf g.P.trigger }
  if g'.enabled then g' else g'.onDisabled

/-- NOISE.FRAME: wrap test and tick, sign factor of bit 0, increment (43_noise.md R179 to R181). -/
def noiseFrame (period : Nat) (short : Bool) (g : NoiseGen) : Sample × NoiseGen :=
  let g' : NoiseGen := if g.c > period then { g with c := 0, lfsr := lfsrTick short g.lfsr } else g
  (signFactor (g'.lfsr.getLsbD 0), { g' with c := g'.c + 1 })

/-- The frame micro-operation with the threshold and mode of the latched snapshot (40_block_datapath.md R106). -/
def NoiseGen.frameOf (rate : ℕ+) (g : NoiseGen) : NoiseGen → Sample × NoiseGen :=
  noiseFrame (period rate g.S.frequency) (shortOf g.S.width)

/-- `RENDER.N F, DST` (43_noise.md R182). -/
def execRenderN (frames : Nat) (dst : Slice) (s : State) : Result :=
  let g := s.ng.enter
  renderBlock .noise frames dst s s.setNg <|
    renderFrames .noise g.enabled g.S.frequency g.S.gain (g.frameOf s.sampleRate) frames dst g s.dst

end Sys2Proof.Machine
end

