-- ==== Sys2Proof/Machine/Params.lean ====
section
/-! DEFINITION. The eleven SETP forms (44_control_system.md R206 to R217). -/

namespace Sys2Proof.Machine

/-- `SETP.P.TRIGGER v` (44_control_system.md R206). -/
def execSetpPTrigger (v : Sample) (s : State) : Result := setp .pTrigger v s

/-- `SETP.P.GAIN v` (44_control_system.md R207). -/
def execSetpPGain (v : Sample) (s : State) : Result := setp .pGain v s

/-- `SETP.P.FREQ v` (44_control_system.md R208). -/
def execSetpPFreq (v : Sample) (s : State) : Result := setp .pFrequency v s

/-- `SETP.P.DUTY v` (44_control_system.md R209). -/
def execSetpPDuty (v : Sample) (s : State) : Result := setp .pDutyCycle v s

/-- `SETP.W.TRIGGER v` (44_control_system.md R210). -/
def execSetpWTrigger (v : Sample) (s : State) : Result := setp .wTrigger v s

/-- `SETP.W.GAIN v` (44_control_system.md R211). -/
def execSetpWGain (v : Sample) (s : State) : Result := setp .wGain v s

/-- `SETP.W.FREQ v` (44_control_system.md R212). -/
def execSetpWFreq (v : Sample) (s : State) : Result := setp .wFrequency v s

/-- `SETP.N.TRIGGER v` (44_control_system.md R213). -/
def execSetpNTrigger (v : Sample) (s : State) : Result := setp .nTrigger v s

/-- `SETP.N.GAIN v` (44_control_system.md R214). -/
def execSetpNGain (v : Sample) (s : State) : Result := setp .nGain v s

/-- `SETP.N.FREQ v` (44_control_system.md R215). -/
def execSetpNFreq (v : Sample) (s : State) : Result := setp .nFrequency v s

/-- `SETP.N.WIDTH v` (44_control_system.md R216). -/
def execSetpNWidth (v : Sample) (s : State) : Result := setp .nWidth v s

end Sys2Proof.Machine
end

