-- ==== Sys2Proof/Machine/Pulse.lean ====
section
/-! DEFINITION. The pulse generator: PULSE.FRAME and RENDER.P (41_pulse.md). -/

namespace Sys2Proof.Machine

/-- Steps 1 and 3 of RENDER.P: SNAP, then the enable test (40_block_datapath.md R101, R102). -/
def PulseGen.enter (g : PulseGen) : PulseGen := { g with S := g.P, enabled := enabledOf g.P.trigger }

/-- The wrap test: strict, so a span is `period + 1` frames (41_pulse.md R123). -/
def pulseWrap (period c : Nat) : Nat := if c > period then 0 else c

/-- PULSE.FRAME: wrap test, sign factor, increment (41_pulse.md R123 to R125). -/
def pulseFrame (period : Nat) (high : Int) (g : PulseGen) : Sample × PulseGen :=
  let c := pulseWrap period g.c
  (signFactor (decide ((c : Int) < high)), { g with c := c + 1 })

/-- The frame micro-operation with the thresholds of the latched snapshot (40_block_datapath.md R106). -/
def PulseGen.frameOf (rate : ℕ+) (g : PulseGen) : PulseGen → Sample × PulseGen :=
  pulseFrame (period rate g.S.frequency) (highSamples (period rate g.S.frequency) g.S.dutyCycle)

/-- `RENDER.P F, DST` (41_pulse.md R126). -/
def execRenderP (frames : Nat) (dst : Slice) (s : State) : Result :=
  let g := s.pg.enter
  renderBlock .pulse frames dst s s.setPg <|
    renderFrames .pulse g.enabled g.S.frequency g.S.gain (g.frameOf s.sampleRate) frames dst g s.dst

end Sys2Proof.Machine
end

