-- ==== Sys2Proof/Machine/Wave.lean ====
section
/-! DEFINITION. The wavetable generator: WAVE.FRAME, RENDER.W and the control channel's WLOAD and WPOST (42_wavetable.md,
44_control_system.md section 3). -/

namespace Sys2Proof.Machine

/-- Steps 1 to 3 of RENDER.W: SNAP, SWAP, then the enable test (40_block_datapath.md R100 to R102, 42_wavetable.md R151). -/
def WaveGen.enter (g : WaveGen) : WaveGen :=
  let g' := ({ g with S := g.P } : WaveGen).swap
  { g' with enabled := enabledOf g'.S.trigger }

/-- WAVE.FRAME: wrap test and step advance, amplitude factor, increment (42_wavetable.md R146 to R148). -/
def waveFrame (stepSamples : Nat) (g : WaveGen) : Sample × WaveGen :=
  let g' : WaveGen := if g.sampleCounter > stepSamples then { g with sampleCounter := 0, stepIndex := g.stepIndex + 1 } else g
  (amplitude (g'.table.get g'.stepIndex), { g' with sampleCounter := g'.sampleCounter + 1 })

/-- The frame micro-operation with the threshold of the latched snapshot (40_block_datapath.md R106). -/
def WaveGen.frameOf (rate : ℕ+) (g : WaveGen) : WaveGen → Sample × WaveGen :=
  waveFrame (stepSamples (period rate g.S.frequency))

/-- `RENDER.W F, DST` (42_wavetable.md R149). -/
def execRenderW (frames : Nat) (dst : Slice) (s : State) : Result :=
  let g := s.wg.enter
  renderBlock .wave frames dst s s.setWg <|
    renderFrames .wave g.enabled g.S.frequency g.S.gain (g.frameOf s.sampleRate) frames dst g s.dst

/-- `WLOAD w0, …, w7`: UNPACK, then POST (44_control_system.md R218). -/
def execWload (words : Vector PackedWord 8) (s : State) : Result :=
  whenLive .wave s <| .next <| s.setWg (s.wg.post (unpack words))

/-- `WPOST t0, …, t31`: POST (44_control_system.md R219); a code above 15 is violation V6 and is never masked
(30_encoding.md R89). -/
def execWpost (codes : Vector Nat 32) (s : State) : Result :=
  whenLive .wave s <|
    if codesFit codes then .next (s.setWg (s.wg.post (tableOfCodes codes))) else .refused .codeAboveFifteen

end Sys2Proof.Machine
end

