-- ==== Sys2Proof/Machine/Dispatch.lean ====
section
/-! DEFINITION. One arm per operation, in the order of spec/opcode_table.json. -/

namespace Sys2Proof.Machine

def exec (i : Instr) (s : State) : Host.Outcome State Fault Refusal :=
  match i with
  | .createP => Sys2Proof.Machine.execCreateP s
  | .createW => Sys2Proof.Machine.execCreateW s
  | .createN => Sys2Proof.Machine.execCreateN s
  | .destroyP => Sys2Proof.Machine.execDestroyP s
  | .destroyW => Sys2Proof.Machine.execDestroyW s
  | .destroyN => Sys2Proof.Machine.execDestroyN s
  | .setpPTrigger v => Sys2Proof.Machine.execSetpPTrigger v s
  | .setpPGain v => Sys2Proof.Machine.execSetpPGain v s
  | .setpPFreq v => Sys2Proof.Machine.execSetpPFreq v s
  | .setpPDuty v => Sys2Proof.Machine.execSetpPDuty v s
  | .setpWTrigger v => Sys2Proof.Machine.execSetpWTrigger v s
  | .setpWGain v => Sys2Proof.Machine.execSetpWGain v s
  | .setpWFreq v => Sys2Proof.Machine.execSetpWFreq v s
  | .setpNTrigger v => Sys2Proof.Machine.execSetpNTrigger v s
  | .setpNGain v => Sys2Proof.Machine.execSetpNGain v s
  | .setpNFreq v => Sys2Proof.Machine.execSetpNFreq v s
  | .setpNWidth v => Sys2Proof.Machine.execSetpNWidth v s
  | .renderP frames dst => Sys2Proof.Machine.execRenderP frames dst s
  | .renderW frames dst => Sys2Proof.Machine.execRenderW frames dst s
  | .renderN frames dst => Sys2Proof.Machine.execRenderN frames dst s
  | .wload words => Sys2Proof.Machine.execWload words s
  | .wpost codes => Sys2Proof.Machine.execWpost codes s

end Sys2Proof.Machine
end

