-- ==== Sys2Proof/Machine/Step.lean ====
section
/-! DEFINITION. One step: the next issued operation takes effect (10_state.md R20, R22). -/

namespace Sys2Proof.Machine

/-- One step. The next command of the queue is taken, decoded and run; a command that is no operation is refused
(30_encoding.md R87). With no command issued nothing happens: "A generator never takes a step of its own" (10_state.md
R20; log 2). -/
def step (s : State) : Host.Outcome State Fault Refusal :=
  match fetch s with
  | none => .next s
  | some (c, s') =>
    match decode c with
    | .ok i => exec i s'
    | .error e => .refused (refusalOf e)

/-- The state in which the operation whose command byte is `w`, with operands of zeros, is the next to take effect: it is
put at the head of the queue, and nothing else changes (log 2). Every row of the table is one byte. -/
def State.withFetchWord (s : State) (_nbits w : Nat) : State := s.setPending (tableCommand w :: s.pending)

end Sys2Proof.Machine
end

