-- ==== Sys2Proof/Safety.lean ====
section
/-! DEFINITION. What counts as a safe run: the host's contract (60_exceptions.md R227), the invariants of the state
(10_state.md R41), and the words the statements share. -/

namespace Sys2Proof.Machine

/-- The legal range [0, 1] of `gain`, `dutyCycle` and `width` (00_scope.md R17). -/
abbrev inUnit (v : Sample) : Prop := 0 ≤ v ∧ v ≤ 1

/-- The legal values 0 and 1 of `trigger` (00_scope.md R17). -/
abbrev isTrigger (v : Sample) : Prop := v = 0 ∨ v = 1

/-- The legal range [1, 20000] Hz of the pulse and wavetable frequencies (00_scope.md R17). -/
abbrev isToneFrequency (v : Sample) : Prop := 1 ≤ v ∧ v ≤ 20000

/-- The legal range [1, 44100] Hz of the noise frequency (00_scope.md R17). -/
abbrev isNoiseFrequency (v : Sample) : Prop := 1 ≤ v ∧ v ≤ 44100

/-- The legal values of a parameter register (00_scope.md R17, 10_state.md R25 to R27; V1 to V5 otherwise). -/
def ParReg.legal (r : ParReg) (v : Sample) : Bool :=
  match r with
  | .pTrigger | .wTrigger | .nTrigger => decide (isTrigger v)
  | .pGain | .wGain | .nGain | .pDutyCycle | .nWidth => decide (inUnit v)
  | .pFrequency | .wFrequency => decide (isToneFrequency v)
  | .nFrequency => decide (isNoiseFrequency v)

/-- The register that a SETP writes and the value it writes there (44_control_system.md R206 to R216). -/
def setpTarget : Instr → Option (ParReg × Sample)
  | .setpPTrigger v => some (.pTrigger, v)
  | .setpPGain v => some (.pGain, v)
  | .setpPFreq v => some (.pFrequency, v)
  | .setpPDuty v => some (.pDutyCycle, v)
  | .setpWTrigger v => some (.wTrigger, v)
  | .setpWGain v => some (.wGain, v)
  | .setpWFreq v => some (.wFrequency, v)
  | .setpNTrigger v => some (.nTrigger, v)
  | .setpNGain v => some (.nGain, v)
  | .setpNFreq v => some (.nFrequency, v)
  | .setpNWidth v => some (.nWidth, v)
  | .createP | .createW | .createN | .destroyP | .destroyW | .destroyN
  | .renderP _ _ | .renderW _ _ | .renderN _ _ | .wload _ | .wpost _ => none

/-- An operation the host or the control thread may issue under the contract: operands well typed and parameter values in
range (60_exceptions.md R227, V2 to V6 and V8). -/
def legalInstr (i : Instr) : Bool :=
  i.wellFormed && match setpTarget i with
    | some (r, v) => r.legal v
    | none => true

/-- Every parameter register holds a legal value (70_reset_and_hazards.md R256). -/
def State.parametersLegal (s : State) : Prop := ∀ r : ParReg, r.legal (parRead s r) = true

/-- The frequency registers. -/
def ParReg.isFrequency : ParReg → Bool
  | .pFrequency | .wFrequency | .nFrequency => true
  | .pTrigger | .pGain | .pDutyCycle | .wTrigger | .wGain | .nTrigger | .nGain | .nWidth => false

/-- None of V2 to V5 holds of a generator's parameters, as `read` gives them: each is legal, or is a frequency that is not
positive, which is V1's case alone (60_exceptions.md R229; log 9). -/
def rangesHold (read : ParReg → Sample) (g : Channel) : Prop :=
  ∀ r : ParReg, r.channel = g → r.legal (read r) = true ∨ (r.isFrequency = true ∧ read r ≤ 0)

/-- The parameter registers are in range. "every claim carries the ranges as a premise" (60_exceptions.md R230; log 9). -/
def State.inRange (s : State) (g : Channel) : Prop := rangesHold (parRead s) g

/-- The value that the snapshot holds of a parameter register (10_state.md R28). -/
def parLatched (s : State) : ParReg → Sample
  | .pTrigger => s.pg.S.trigger
  | .pGain => s.pg.S.gain
  | .pFrequency => s.pg.S.frequency
  | .pDutyCycle => s.pg.S.dutyCycle
  | .wTrigger => s.wg.S.trigger
  | .wGain => s.wg.S.gain
  | .wFrequency => s.wg.S.frequency
  | .nTrigger => s.ng.S.trigger
  | .nGain => s.ng.S.gain
  | .nFrequency => s.ng.S.frequency
  | .nWidth => s.ng.S.width

/-- The latched parameters, those of the generator's last RENDER, are in range (60_exceptions.md R230; log 9). -/
def State.latchInRange (s : State) (g : Channel) : Prop := rangesHold (parLatched s) g

/-- Every operation still pending is one the contract allows. -/
def State.pendingLegal (s : State) : Prop := ∀ c ∈ s.pending, ∀ i, decode c = .ok i → legalInstr i = true

/-- The counter bounds of 00_scope.md R16, 41_pulse.md R125, 42_wavetable.md R150 and 43_noise.md R181. -/
abbrev State.countersBounded (s : State) : Prop :=
  s.pg.c ≤ (s.sampleRate : Nat) + 1 ∧ s.wg.sampleCounter ≤ (s.sampleRate : Nat) / 32 + 1 ∧
    s.ng.c ≤ (s.sampleRate : Nat) + 1

/-- Run `k` from the next state, if there is one. -/
def andThen (r : Result) (k : State → Result) : Result :=
  match r with
  | .next t => k t
  | .fault e => .fault e
  | .refused e => .refused e

/-- The RENDER of a generator. -/
def renderOf (g : Channel) (frames : Nat) (dst : Slice) : Instr :=
  match g with
  | .pulse => .renderP frames dst
  | .wave => .renderW frames dst
  | .noise => .renderN frames dst

/-- Where an operation is a RENDER, its generator's parameters are in range: the premise that every claim about an operation
carries (60_exceptions.md R230; log 9). -/
def renderInRange (i : Instr) (s : State) : Prop := ∀ g F d, i = renderOf g F d → s.inRange g

/-- Where the next step runs a RENDER, its generator's parameters are in range: the premise of a claim about a step
(60_exceptions.md R230; log 9). -/
def State.stepInRange (s : State) : Prop :=
  ∀ c rest i, s.pending = c :: rest → decode c = .ok i → renderInRange i s

/-- The CREATE of a generator. -/
def createOf : Channel → Instr
  | .pulse => .createP
  | .wave => .createW
  | .noise => .createN

/-- The DESTROY of a generator. -/
def destroyOf : Channel → Instr
  | .pulse => .destroyP
  | .wave => .destroyW
  | .noise => .destroyN

/-- Two states have the same generator of a kind. -/
def sameGen (g : Channel) (s t : State) : Prop :=
  match g with
  | .pulse => t.pg = s.pg
  | .wave => t.wg = s.wg
  | .noise => t.ng = s.ng

/-- The trigger parameter register of a generator. -/
def triggerOf (s : State) : Channel → Sample
  | .pulse => s.pg.P.trigger
  | .wave => s.wg.P.trigger
  | .noise => s.ng.P.trigger

/-- The latched trigger of a generator. -/
def latchedTriggerOf (s : State) : Channel → Sample
  | .pulse => s.pg.S.trigger
  | .wave => s.wg.S.trigger
  | .noise => s.ng.S.trigger

/-- The frequency parameter register of a generator. -/
def frequencyOf (s : State) : Channel → Sample
  | .pulse => s.pg.P.frequency
  | .wave => s.wg.P.frequency
  | .noise => s.ng.P.frequency

/-- The gain parameter register of a generator. -/
def gainOf (s : State) : Channel → Sample
  | .pulse => s.pg.P.gain
  | .wave => s.wg.P.gain
  | .noise => s.ng.P.gain

/-- The enable flag of a generator. -/
def enableFlag (s : State) : Channel → Bool
  | .pulse => s.pg.enabled
  | .wave => s.wg.enabled
  | .noise => s.ng.enabled

/-- The invariant every step keeps: the sample memory is canonical, a generator that is not live holds nothing (10_state.md
R23; log 3), and the enable flag agrees with the latched trigger (10_state.md R29) where the latched parameters are in range
(60_exceptions.md R230; log 9). -/
def State.inv (s : State) : Prop :=
  Memory.wf s.dst ∧
  (s.pg.live = false → s.pg = PulseGen.dead) ∧ (s.wg.live = false → s.wg = WaveGen.dead) ∧
  (s.ng.live = false → s.ng = NoiseGen.dead) ∧
  ∀ g, s.latchInRange g → enableFlag s g = enabledOf (latchedTriggerOf s g)

/-- Every element outside the `n` elements from address `a` on reads as before. -/
def unchangedOutside (a n : Nat) (m m' : Memory) : Prop :=
  ∀ x, (x < a ∨ a + n ≤ x) → Memory.read m' x = Memory.read m x

/-- Two slices share no element within their first `m` and `n` elements (70_reset_and_hazards.md R257). -/
abbrev disjointSlices (d : Slice) (m : Nat) (e : Slice) (n : Nat) : Prop :=
  d.base + m ≤ e.base ∨ e.base + n ≤ d.base

/-- The table a RENDER.W plays: the waiting one if there is one, else the active one (42_wavetable.md R151). -/
def tableToPlay (g : WaveGen) : Wavetable := g.slot.getD g.table

/-- The number of ticks a run of `n` ticks makes of a register. -/
def ticks (f : ShiftReg → ShiftReg) : Nat → ShiftReg → ShiftReg
  | 0, x => x
  | n + 1, x => ticks f n (f x)

end Sys2Proof.Machine
end

