-- ==== Sys2Proof/Certificates/Slice0/Obligations.lean ====
section
/-! DEFINITION. The statements for the provers. -/

open Sys2Proof Sys2Proof.Machine

/-! ## Commands and their decoding -/

/-- Words written out from 30_encoding.md R81 to R86 decode to the operations they stand for, and `0x37` to none (R87). -/
def Obligations.SpecWordsDecode : Prop :=
  decode ⟨0b00010000, .empty⟩ = .ok .createP ∧ decode ⟨0b00101000, .empty⟩ = .ok .destroyN ∧
  decode ⟨0b00111011, .value (1 / 2)⟩ = .ok (.setpNWidth (1 / 2)) ∧
  decode ⟨0b01000100, .block 8 ⟨0, 8⟩⟩ = .ok (.renderW 8 ⟨0, 8⟩) ∧
  decode ⟨0b01010100, .words (Vector.replicate 8 0xF00F)⟩ = .ok (.wload (Vector.replicate 8 0xF00F)) ∧
  decode ⟨0b01100100, .codes (Vector.replicate 32 15)⟩ = .ok (.wpost (Vector.replicate 32 15)) ∧
  decode ⟨0b00110111, .value 0⟩ = .error (.illegalCommand 0x37)

/-- Decode and encode agree, both ways, on every command and every operation (30_encoding.md R86, R91; the byte is the
spec's decision D20, the operand shapes log 8). -/
def Obligations.DecodeEncodeAgree : Prop :=
  ∀ (c : Command) (i : Instr), decode c = .ok i ↔ c = encode i

/-- A command whose byte is none of the twenty-two of 30_encoding.md R86 is refused, whatever its operands (R87, decision
D30). -/
def Obligations.IllegalBytesRefused : Prop :=
  ∀ (s : State) (c : Command) (rest : List Command), s.pending = c :: rest → c.byte ∉ opcodeMap →
    step s = .refused (.illegalCommand c.byte)

/-- A step takes the next issued command off the queue and runs the operation it decodes to (10_state.md R20, R22; the
queue is the model's, log 2). -/
def Obligations.StepRunsDecoded : Prop :=
  ∀ (s : State) (c : Command) (rest : List Command) (i : Instr), s.pending = c :: rest → decode c = .ok i →
    step s = exec i (s.setPending rest)

/-- With no command issued a step changes nothing: the core takes no step of its own (10_state.md R20, decision D1; log 2). -/
def Obligations.NothingIssuedNothingChanges : Prop :=
  ∀ s : State, s.pending = [] → step s = .next s

/-! ## Lifecycle -/

/-- CREATE gives a generator that is not live its reset values and changes nothing else (44_control_system.md R200 to R202,
10_state.md R42; the spec's decisions D6, D10, D11, D14, D27). -/
def Obligations.CreateGivesResetState : Prop :=
  ∀ s : State,
    (s.pg.live = false → exec .createP s = .next { s with pg :=
      { live := true, P := ⟨0, 0, 1, 0⟩, S := ⟨0, 0, 1, 0⟩, enabled := false, c := 0 } }) ∧
    (s.wg.live = false → exec .createW s = .next { s with wg :=
      { live := true, P := ⟨0, 0, 1⟩, S := ⟨0, 0, 1⟩, enabled := false, sampleCounter := 0, stepIndex := 0,
        table := Vector.replicate 32 0, slot := none } }) ∧
    (s.ng.live = false → exec .createN s = .next { s with ng :=
      { live := true, P := ⟨0, 0, 1, 0⟩, S := ⟨0, 0, 1, 0⟩, enabled := false, c := 0, lfsr := 0x0000 } })

/-- DESTROY of a live generator completes, leaves it not live, and changes nothing outside it (44_control_system.md R203 to
R205, decision D27). -/
def Obligations.DestroyEndsTheSession : Prop :=
  ∀ (g : Channel) (s : State), s.live g = true →
    ∃ t, exec (destroyOf g) s = .next t ∧ t.live g = false ∧ (∀ g', g' ≠ g → sameGen g' s t) ∧
      t.sampleRate = s.sampleRate ∧ t.dst = s.dst ∧ t.pending = s.pending

/-- Nothing survives from one session to the next (70_reset_and_hazards.md R251): from any live generator, DESTROY and then
CREATE give the very generator that CREATE gives on any machine on which it is not live. -/
def Obligations.RecreatedIsNew : Prop :=
  ∀ (g : Channel) (s s0 : State), s.live g = true → s0.live g = false →
    ∃ t u u0, exec (destroyOf g) s = .next t ∧ exec (createOf g) t = .next u ∧
      exec (createOf g) s0 = .next u0 ∧ sameGen g u0 u

/-- Every operation on a generator in the wrong liveness state is refused by name (60_exceptions.md R227 V7, R230;
decisions D24, D27). That this name comes first where the operands are ill typed too is the model's choice (log 10). -/
def Obligations.WrongLivenessRefused : Prop :=
  ∀ (i : Instr) (s : State),
    (i = createOf i.channel → s.live i.channel = true → exec i s = .refused (.alreadyLive i.channel)) ∧
    (i ≠ createOf i.channel → s.live i.channel = false → exec i s = .refused (.notLive i.channel))

/-! ## Parameter writes -/

/-- Each of the eleven SETP forms completes on a live generator, writes its own parameter register unchecked, and changes
nothing else: no other parameter, no snapshot, flag, counter, table, mailbox, shift register or sample (44_control_system.md
R206 to R217, 10_state.md R28). -/
def Obligations.SetpWritesOneRegister : Prop :=
  ∀ (i : Instr) (r : ParReg) (v : Sample) (s : State), setpTarget i = some (r, v) → s.live r.channel = true →
    ∃ t, exec i s = .next t ∧ parRead t r = v ∧ (∀ r', r' ≠ r → parRead t r' = parRead s r') ∧
      t.pg = { s.pg with P := t.pg.P } ∧ t.wg = { s.wg with P := t.wg.P } ∧ t.ng = { s.ng with P := t.ng.P } ∧
      t.sampleRate = s.sampleRate ∧ t.dst = s.dst ∧ t.pending = s.pending

/-- 44_control_system.md R210, R211, R213 and R214, each whole: the command byte, the effect, the legal values. -/
def Obligations.TriggerAndGainSetpRules : Prop :=
  ∀ (v : Sample) (s : State),
    (decode ⟨0x34, .value v⟩ = .ok (.setpWTrigger v) ∧
      (s.wg.live = true → exec (.setpWTrigger v) s = .next { s with wg.P.trigger := v }) ∧
      (legalInstr (.setpWTrigger v) = true ↔ v = 0 ∨ v = 1)) ∧
    (decode ⟨0x35, .value v⟩ = .ok (.setpWGain v) ∧
      (s.wg.live = true → exec (.setpWGain v) s = .next { s with wg.P.gain := v }) ∧
      (legalInstr (.setpWGain v) = true ↔ 0 ≤ v ∧ v ≤ 1)) ∧
    (decode ⟨0x38, .value v⟩ = .ok (.setpNTrigger v) ∧
      (s.ng.live = true → exec (.setpNTrigger v) s = .next { s with ng.P.trigger := v }) ∧
      (legalInstr (.setpNTrigger v) = true ↔ v = 0 ∨ v = 1)) ∧
    (decode ⟨0x39, .value v⟩ = .ok (.setpNGain v) ∧
      (s.ng.live = true → exec (.setpNGain v) s = .next { s with ng.P.gain := v }) ∧
      (legalInstr (.setpNGain v) = true ↔ 0 ≤ v ∧ v ≤ 1))

/-- 44_control_system.md R206 whole: the command byte, the effect, the legal values, and that the next RENDER.P is enabled
exactly when `v > 1/2`, parameters in range (60_exceptions.md R230; log 9). -/
def Obligations.PulseTriggerSetpRule : Prop :=
  ∀ (v : Sample) (s : State), s.pg.live = true →
    decode ⟨0x30, .value v⟩ = .ok (.setpPTrigger v) ∧
    (legalInstr (.setpPTrigger v) = true ↔ v = 0 ∨ v = 1) ∧
    exec (.setpPTrigger v) s = .next { s with pg.P.trigger := v } ∧
    ∀ (F : Nat) (d : Slice) (u : State), ({ s with pg.P.trigger := v } : State).inRange .pulse →
      exec (.renderP F d) { s with pg.P.trigger := v } = .next u →
      u.pg.enabled = decide (v > 1 / 2)

/-! ## What every RENDER does -/

/-- `enabled` changes only at a RENDER of its generator, where it becomes `trigger > 1/2` of the latched trigger, which is
the trigger register's value at the RENDER (40_block_datapath.md R102); CREATE and DESTROY begin and end the generator itself.
Parameters of a RENDER in range (60_exceptions.md R230; log 9). -/
def Obligations.EnableFlagRule : Prop :=
  ∀ (i : Instr) (s t : State), renderInRange i s → exec i s = .next t → ∀ g : Channel,
    (∀ F d, i = renderOf g F d → latchedTriggerOf t g = triggerOf s g ∧
      enableFlag t g = decide (latchedTriggerOf t g > 1 / 2)) ∧
    ((∀ F d, i ≠ renderOf g F d) → i ≠ createOf g → i ≠ destroyOf g → enableFlag t g = enableFlag s g)

/-- SNAP: after a RENDER the latch holds every parameter register's value, enabled or not, and no register has changed
(40_block_datapath.md R101; that it happens on every RENDER is decision D15).
Parameters of a RENDER in range (60_exceptions.md R230; log 9). -/
def Obligations.RenderLatchesParameters : Prop :=
  ∀ (F : Nat) (d : Slice) (s t : State),
    (s.inRange .pulse → exec (.renderP F d) s = .next t → t.pg.S = s.pg.P ∧ t.pg.P = s.pg.P) ∧
    (s.inRange .wave → exec (.renderW F d) s = .next t → t.wg.S = s.wg.P ∧ t.wg.P = s.wg.P) ∧
    (s.inRange .noise → exec (.renderN F d) s = .next t → t.ng.S = s.ng.P ∧ t.ng.P = s.ng.P)

/-- The frame of every RENDER: it writes no sample outside the first `F` elements of its slice, no parameter register, no
liveness, no other generator, and leaves the queue and the sample rate (40_block_datapath.md R109, R113; 10_state.md R40).
Parameters of a RENDER in range (60_exceptions.md R230; log 9). -/
def Obligations.RenderFrame : Prop :=
  ∀ (g : Channel) (F : Nat) (d : Slice) (s t : State), s.inRange g → exec (renderOf g F d) s = .next t →
    (∀ g', g' ≠ g → sameGen g' s t) ∧ (∀ r, parRead t r = parRead s r) ∧ (∀ g', t.live g' = s.live g') ∧
    t.sampleRate = s.sampleRate ∧ t.pending = s.pending ∧ unchangedOutside d.base F s.dst t.dst

/-- Where a RENDER faults: a live, enabled generator whose frequency is not positive; with the trigger at or below 1/2 the
same frequency is harmless and the RENDER completes (41_pulse.md R129, 42_wavetable.md R160, 43_noise.md R189).
That it faults is R228, decision D24; with `F = 0` too, log 10. The other parameters are in range (60_exceptions.md R230;
log 9). -/
def Obligations.NonPositiveFrequencyFaults : Prop :=
  ∀ (g : Channel) (F : Nat) (d : Slice) (s : State), s.live g = true → F ≤ d.len → s.inRange g →
    frequencyOf s g ≤ 0 → (triggerOf s g > 1 / 2 → exec (renderOf g F d) s = .fault (.frequencyNotPositive g)) ∧
    (triggerOf s g ≤ 1 / 2 → ∃ t, exec (renderOf g F d) s = .next t)

/-- A RENDER into a slice shorter than `F` is refused (60_exceptions.md R227 V8, R230; decisions D24, D26). That the refusal
comes before the fault of V1 where both hold is the model's choice (log 10). -/
def Obligations.ShortSliceRefused : Prop :=
  ∀ (g : Channel) (F : Nat) (d : Slice) (s : State), s.live g = true → d.len < F →
    exec (renderOf g F d) s = .refused (.sliceTooShort g)

/-- `F = 0`: the snapshot, the swap and the enable test happen, and no counter, step index, shift register or sample moves
(40_block_datapath.md R111).
Parameters in range (60_exceptions.md R230; log 9). -/
def Obligations.ZeroFramesMoveNothing : Prop :=
  ∀ (g : Channel) (d : Slice) (s : State), s.live g = true → s.inRange g →
    (triggerOf s g > 1 / 2 → 0 < frequencyOf s g) →
    ∃ t, exec (renderOf g 0 d) s = .next t ∧ t.dst = s.dst ∧ t.pg.c = s.pg.c ∧
      t.wg.sampleCounter = s.wg.sampleCounter ∧ t.wg.stepIndex = s.wg.stepIndex ∧
      t.ng.c = s.ng.c ∧ t.ng.lfsr = s.ng.lfsr ∧ enableFlag t g = decide (triggerOf s g > 1 / 2) ∧
      (g = .pulse → t.pg.S = s.pg.P) ∧ (g = .noise → t.ng.S = s.ng.P) ∧
      (g = .wave → t.wg.S = s.wg.P ∧ t.wg.table = tableToPlay s.wg ∧ t.wg.slot = none)

/-- Blocks join seamlessly: `m` frames and then `n` more into the elements that follow leave the very state that one block
of `m + n` frames leaves, for every generator, enabled or not (40_block_datapath.md R115).
Parameters in range (60_exceptions.md R230; log 9). -/
def Obligations.BlocksJoin : Prop :=
  ∀ (g : Channel) (m n : Nat) (d₁ d₂ d : Slice) (s t : State), s.inRange g → exec (renderOf g m d₁) s = .next t →
    d.base = d₁.base → d₂.base = d₁.base + m → n ≤ d₂.len → m + n ≤ d.len →
    exec (renderOf g n d₂) t = exec (renderOf g (m + n) d) s

/-- The RENDERs of two generators commute when their slices share no element (40_block_datapath.md R113, decision D18): both
orders complete, with the same state.
Parameters in range (60_exceptions.md R230; log 9). -/
def Obligations.RendersCommute : Prop :=
  ∀ (g h : Channel) (m n : Nat) (d e : Slice) (s t u : State), g ≠ h → Memory.wf s.dst → s.inRange g → s.inRange h →
    disjointSlices d m e n →
    exec (renderOf g m d) s = .next t → exec (renderOf h n e) s = .next u →
    ∃ v, exec (renderOf h n e) t = .next v ∧ exec (renderOf g m d) u = .next v

/-- Every sample that an enabled RENDER writes lies in [-gain, gain], a part of [-1, 1], and a pulse or
noise sample is `-gain` or `+gain` (40_block_datapath.md R110, 70_reset_and_hazards.md R258).
Parameters in range (60_exceptions.md R230; log 9). -/
def Obligations.SamplesWithinGain : Prop :=
  ∀ (g : Channel) (F : Nat) (d : Slice) (s t : State), Memory.wf s.dst → s.inRange g → triggerOf s g > 1 / 2 →
    exec (renderOf g F d) s = .next t → ∀ n, n < F →
      -gainOf s g ≤ Memory.read t.dst (d.base + n) ∧ Memory.read t.dst (d.base + n) ≤ gainOf s g ∧
      -1 ≤ Memory.read t.dst (d.base + n) ∧ Memory.read t.dst (d.base + n) ≤ 1 ∧
      (g ≠ .wave → Memory.read t.dst (d.base + n) = -gainOf s g ∨ Memory.read t.dst (d.base + n) = gainOf s g)

/-! ## The pulse generator -/

/-- `period`, `highSamples` and `stepSamples` are the floors of 41_pulse.md R121 and R122 and 42_wavetable.md R145, with the
bounds given there. -/
def Obligations.ThresholdsAreFloors : Prop :=
  ∀ (r : ℕ+) (f q : Sample), 0 < f →
    ((period r f : Sample) ≤ ((r : Nat) : Sample) / f ∧ ((r : Nat) : Sample) / f < (period r f : Sample) + 1) ∧
    (1 ≤ f → f ≤ 20000 → (r : Nat) / 20000 ≤ period r f ∧ period r f ≤ r) ∧
    (((r : Nat) : Sample) < f → period r f = 0) ∧
    ((highSamples (period r f) q : Sample) ≤ (period r f : Sample) * q ∧
      (period r f : Sample) * q < (highSamples (period r f) q : Sample) + 1) ∧
    (inUnit q → 0 ≤ highSamples (period r f) q ∧ highSamples (period r f) q ≤ (period r f : Int)) ∧
    (32 * stepSamples (period r f) ≤ period r f ∧ period r f < 32 * (stepSamples (period r f) + 1)) ∧
    (period r f < 32 → stepSamples (period r f) = 0)

/-- PULSE.FRAME: the strict wrap test, the sign factor of the counter after it, the increment, and the counter's bound
(41_pulse.md R123, R124, R125). -/
def Obligations.PulseFrameRule : Prop :=
  ∀ (p : Nat) (h : Int) (g : PulseGen) (c : Nat), c = (if g.c > p then 0 else g.c) →
    (pulseFrame p h g).1 = (if (c : Int) < h then -1 else 1) ∧ (pulseFrame p h g).2 = { g with c := c + 1 } ∧
    1 ≤ (pulseFrame p h g).2.c ∧ (pulseFrame p h g).2.c ≤ p + 1 ∧
    ∀ (r : ℕ+) (f : Sample), 1 ≤ f → p = period r f → (pulseFrame p h g).2.c ≤ (r : Nat) + 1

/-- Span of the pulse generator: an enabled RENDER.P completes; with `e` the counter after the first wrap test, frame `n` is
`-gain` while `(e + n) mod (period + 1) < highSamples` and `+gain` for the rest of the span of `period + 1` frames (41_pulse.md
R128). From `c = 0` the first span begins at frame 0.
Parameters in range (60_exceptions.md R230; log 9). -/
def Obligations.PulseSpan : Prop :=
  ∀ (F : Nat) (d : Slice) (s : State) (p e : Nat) (h : Int), s.pg.live = true → F ≤ d.len → Memory.wf s.dst →
    s.inRange .pulse → s.pg.P.trigger > 1 / 2 → 0 < s.pg.P.frequency →
    p = period s.sampleRate s.pg.P.frequency → h = highSamples p s.pg.P.dutyCycle →
    e = (if s.pg.c > p then 0 else s.pg.c) →
    ∃ t, exec (.renderP F d) s = .next t ∧
      (∀ n, n < F → Memory.read t.dst (d.base + n) =
        if (((e + n) % (p + 1) : Nat) : Int) < h then -s.pg.P.gain else s.pg.P.gain) ∧
      t.pg.c = (if F = 0 then s.pg.c else (e + (F - 1)) % (p + 1) + 1)

/-- A disabled RENDER.P completes and leaves `PG.c`, `DST` and everything outside `PG` as they were, and a generator enabled
again resumes from there: the enabled block gives what it would have given without the disabled one (41_pulse.md R127).
Parameters in range (60_exceptions.md R230; log 9). -/
def Obligations.DisabledPulseFrozen : Prop :=
  ∀ (F : Nat) (d : Slice) (s : State), s.pg.live = true → F ≤ d.len → s.inRange .pulse → s.pg.P.trigger ≤ 1 / 2 →
    ∃ t, exec (.renderP F d) s = .next t ∧ t.pg.c = s.pg.c ∧ t.dst = s.dst ∧ t.wg = s.wg ∧ t.ng = s.ng ∧
      ∀ (v : Sample) (F' : Nat) (d' : Slice), isTrigger v → andThen (exec (.setpPTrigger v) t) (exec (.renderP F' d')) =
        andThen (exec (.setpPTrigger v) s) (exec (.renderP F' d'))

/-! ## The wavetable generator and the control channel -/

/-- WAVE.FRAME: the strict wrap test with the step advance modulo 32, the amplitude of the entry at the step index after it,
the increment (42_wavetable.md R146, R147, R148). -/
def Obligations.WaveFrameRule : Prop :=
  ∀ (p : Nat) (g : WaveGen),
    (g.sampleCounter > p → waveFrame p g = (amplitude (g.table.get (g.stepIndex + 1)),
      { g with sampleCounter := 0 + 1, stepIndex := g.stepIndex + 1 })) ∧
    (g.sampleCounter ≤ p → waveFrame p g = (amplitude (g.table.get g.stepIndex),
      { g with sampleCounter := g.sampleCounter + 1 })) ∧
    (∀ k : Fin 32, (k + 1).val = (k.val + 1) % 32)

/-- An enabled RENDER.W completes; with `e` and `b` the counter and step index after the first wrap test, frame `n` plays
entry `b + (e + n) div (stepSamples + 1)`, modulo 32, of the table in the mailbox, or of the active table where the mailbox
is empty (42_wavetable.md R149, R151, R155; the place of the swap is decision D15).
Parameters in range (60_exceptions.md R230; log 9). -/
def Obligations.WaveSpan : Prop :=
  ∀ (F : Nat) (d : Slice) (s : State) (p e : Nat) (b : Fin 32), s.wg.live = true → F ≤ d.len → Memory.wf s.dst →
    s.inRange .wave → s.wg.P.trigger > 1 / 2 → 0 < s.wg.P.frequency →
    p = stepSamples (period s.sampleRate s.wg.P.frequency) →
    e = (if s.wg.sampleCounter > p then 0 else s.wg.sampleCounter) →
    b = (if s.wg.sampleCounter > p then s.wg.stepIndex + 1 else s.wg.stepIndex) →
    ∃ t, exec (.renderW F d) s = .next t ∧
      (∀ n, n < F → Memory.read t.dst (d.base + n) =
        amplitude ((tableToPlay s.wg).get (b + Fin.ofNat 32 ((e + n) / (p + 1)))) * s.wg.P.gain) ∧
      t.wg.table = tableToPlay s.wg ∧ t.wg.slot = none ∧
      t.wg.sampleCounter = (if F = 0 then s.wg.sampleCounter else (e + (F - 1)) % (p + 1) + 1) ∧
      t.wg.stepIndex = (if F = 0 then s.wg.stepIndex else b + Fin.ofNat 32 ((e + (F - 1)) / (p + 1)))

/-- A disabled RENDER.W completes, writes no sample, keeps both counters, and still takes a waiting table (42_wavetable.md
R154; decisions D15, D25).
Parameters in range (60_exceptions.md R230; log 9). -/
def Obligations.DisabledWaveStillSwaps : Prop :=
  ∀ (F : Nat) (d : Slice) (s : State), s.wg.live = true → F ≤ d.len → s.inRange .wave → s.wg.P.trigger ≤ 1 / 2 →
    ∃ t, exec (.renderW F d) s = .next t ∧ t.wg.sampleCounter = s.wg.sampleCounter ∧
      t.wg.stepIndex = s.wg.stepIndex ∧ t.wg.table = tableToPlay s.wg ∧ t.wg.slot = none ∧
      t.dst = s.dst ∧ t.pg = s.pg ∧ t.ng = s.ng

/-- The swap changes neither the step index nor the sample counter, and the next frame plays entry `stepIndex` of the new
table, wherever the index stands and whether or not that frame advances it (42_wavetable.md R152).
Parameters in range (60_exceptions.md R230; log 9). -/
def Obligations.SwapKeepsPhase : Prop :=
  ∀ (d : Slice) (s : State) (t : Wavetable), s.wg.live = true → s.wg.slot = some t → Memory.wf s.dst →
    s.inRange .wave → s.wg.P.trigger > 1 / 2 → 0 < s.wg.P.frequency → 1 ≤ d.len →
    (∃ u, exec (.renderW 0 d) s = .next u ∧ u.wg.table = t ∧ u.wg.slot = none ∧ u.wg.stepIndex = s.wg.stepIndex ∧
      u.wg.sampleCounter = s.wg.sampleCounter) ∧
    (s.wg.sampleCounter ≤ stepSamples (period s.sampleRate s.wg.P.frequency) →
      ∃ u, exec (.renderW 1 d) s = .next u ∧
        Memory.read u.dst d.base = amplitude (t.get s.wg.stepIndex) * s.wg.P.gain) ∧
    (s.wg.sampleCounter > stepSamples (period s.sampleRate s.wg.P.frequency) →
      ∃ u, exec (.renderW 1 d) s = .next u ∧ u.wg.stepIndex = s.wg.stepIndex + 1 ∧
        Memory.read u.dst d.base = amplitude (t.get (s.wg.stepIndex + 1)) * s.wg.P.gain)

/-- All-zero codes give the constant `+gain` and all-15 codes the constant `-gain`, whatever the counters, frequency and
number of frames (42_wavetable.md R156).
Parameters in range (60_exceptions.md R230; log 9). -/
def Obligations.ConstantTables : Prop :=
  ∀ (F : Nat) (d : Slice) (s : State), s.wg.live = true → F ≤ d.len → Memory.wf s.dst → s.inRange .wave →
    s.wg.P.trigger > 1 / 2 → 0 < s.wg.P.frequency →
    ∃ t, exec (.renderW F d) s = .next t ∧
      ((∀ k, (tableToPlay s.wg).get k = 0) → ∀ n, n < F → Memory.read t.dst (d.base + n) = 1 * s.wg.P.gain) ∧
      ((∀ k, (tableToPlay s.wg).get k = 15) → ∀ n, n < F → Memory.read t.dst (d.base + n) = -1 * s.wg.P.gain)

/-- Replacing the wavetable twice with the same contents is one replacement: two POSTs before a SWAP leave what one leaves,
and a POST of the table already active changes nothing that the next RENDER.W leaves, so no later sample (42_wavetable.md
R157).
Parameters of a RENDER in range (60_exceptions.md R230; log 9). -/
def Obligations.ReplacementIdempotent : Prop :=
  (∀ (c : Vector Nat 32) (s : State), andThen (exec (.wpost c) s) (exec (.wpost c)) = exec (.wpost c) s) ∧
  (∀ (c : Vector Nat 32) (s t : State) (m n : Nat) (d e : Slice), s.wg.live = true → codesFit c = true →
    s.inRange .wave →
    andThen (exec (.wpost c) s) (exec (.renderW m d)) = .next t →
    andThen (exec (.wpost c) t) (exec (.renderW n e)) = exec (.renderW n e) t)

/-- The active table is only ever replaced whole, by the table that was waiting in the mailbox, at a RENDER.W; CREATE.W and
DESTROY.W begin and end the generator itself (42_wavetable.md R141).
Parameters of a RENDER in range (60_exceptions.md R230; log 9). -/
def Obligations.TableReplacedWholesale : Prop :=
  ∀ (i : Instr) (s t : State), renderInRange i s → exec i s = .next t → i ≠ .createW → i ≠ .destroyW →
    t.wg.table = s.wg.table ∨ ((∃ F d, i = .renderW F d) ∧ s.wg.slot = some t.wg.table ∧ t.wg.slot = none)

/-- The newest table wins: of two POSTs with no SWAP between, only the second is left, and neither touches the active table
or the counters (44_control_system.md R220, 70_reset_and_hazards.md R263; decision D16). -/
def Obligations.NewestTableWins : Prop :=
  ∀ (a b : Vector Nat 32) (s : State), s.wg.live = true → codesFit a = true → codesFit b = true →
    andThen (exec (.wpost a) s) (exec (.wpost b)) = .next { s with wg.slot := some (tableOfCodes b) }

/-- 44_control_system.md R219: the command byte, the effect of WPOST on a live generator, and that WLOAD does the same
whenever it unpacks to the same table; that the control thread issues it; and the rule's example: after thirty-two codes
15 the next enabled RENDER.W writes `-gain`.
Parameters in range for the example (60_exceptions.md R230; log 9). -/
def Obligations.WpostRule : Prop :=
  ∀ (c : Vector Nat 32) (s : State), decode ⟨0x64, .codes c⟩ = .ok (.wpost c) ∧ (Instr.wpost c).agent = .ctl ∧
    (s.wg.live = true → (∀ k, c.get k ≤ 15) →
      ∃ t : Wavetable, (∀ k, (t.get k).toNat = c.get k) ∧ exec (.wpost c) s = .next { s with wg.slot := some t } ∧
        ∀ w : Vector PackedWord 8, unpack w = t → exec (.wload w) s = exec (.wpost c) s) ∧
    ∀ (F : Nat) (d : Slice) (t u : State), c = Vector.replicate 32 15 → exec (.wpost c) s = .next t →
      Memory.wf s.dst → s.inRange .wave → s.wg.P.trigger > 1 / 2 → exec (.renderW F d) t = .next u →
      ∀ n, n < F → Memory.read u.dst (d.base + n) = -s.wg.P.gain

/-- WLOAD completes on a live generator: the unpacked table waits in the mailbox and nothing else changes
(44_control_system.md R218, R220; decision D16 for what the mailbox held). -/
def Obligations.WloadPostsUnpackedTable : Prop :=
  ∀ (w : Vector PackedWord 8) (s : State), s.wg.live = true →
    exec (.wload w) s = .next { s with wg.slot := some (unpack w) }

/-- The logical order of a packed payload: high nibble before low nibble, byte 0 before byte 1 (20_memory.md R57). -/
def Obligations.UnpackLayout : Prop :=
  ∀ (w : Vector PackedWord 8) (k : Fin 8),
    (unpack w).get (Fin.ofNat 32 (4 * k.val)) = (w.get k).extractLsb' 4 4 ∧
    (unpack w).get (Fin.ofNat 32 (4 * k.val + 1)) = (w.get k).extractLsb' 0 4 ∧
    (unpack w).get (Fin.ofNat 32 (4 * k.val + 2)) = (w.get k).extractLsb' 12 4 ∧
    (unpack w).get (Fin.ofNat 32 (4 * k.val + 3)) = (w.get k).extractLsb' 8 4

/-- Bits 31 to 16 of the packed words carry no data: payloads that agree below them have the same effect (20_memory.md R58,
30_encoding.md R88). -/
def Obligations.UpperHalvesIgnored : Prop :=
  ∀ (w w' : Vector PackedWord 8) (s : State), (∀ k, (w.get k).extractLsb' 0 16 = (w'.get k).extractLsb' 0 16) →
    exec (.wload w) s = exec (.wload w') s

/-- The amplitude of a code (30_encoding.md R78): `1 - 2*(n/15)`, from +1 at code 0 to -1 at code 15, a larger code a lower
level, and no code at level 0. -/
def Obligations.AmplitudeCodes : Prop :=
  (∀ n : Code, amplitude n = 1 - 2 * ((n.toNat : Sample) / 15)) ∧ amplitude 0 = 1 ∧ amplitude 15 = -1 ∧
  (∀ m n : Code, m < n → amplitude n < amplitude m) ∧ (∀ n : Code, amplitude n ≠ 0) ∧
  amplitude 7 = 1 / 15 ∧ amplitude 8 = -1 / 15

/-- A WPOST with a code above 15 is refused and never masked (30_encoding.md R89, 60_exceptions.md R230 V6; decision D24). -/
def Obligations.CodeAboveFifteenRefused : Prop :=
  ∀ (c : Vector Nat 32) (s : State) (k : Fin 32), s.wg.live = true → c.get k > 15 →
    exec (.wpost c) s = .refused .codeAboveFifteen

/-! ## The noise generator -/

/-- LFSR.TICK in long mode: bit by bit and as an integer, with the feedback the XNOR of the two lowest bits (43_noise.md
R174, R175). -/
def Obligations.LongTickRule : Prop :=
  ∀ x : ShiftReg,
    (feedback x = true ↔ x.getLsbD 0 = x.getLsbD 1) ∧ feedback x = !(x.getLsbD 0 ^^ x.getLsbD 1) ∧
    (tickLong x).getLsbD 14 = feedback x ∧ (∀ i, i < 14 → (tickLong x).getLsbD i = x.getLsbD (i + 1)) ∧
    tickLong x = (x >>> 1) ||| ((BitVec.ofBool (feedback x)).setWidth 15 <<< 14)

/-- LFSR.TICK in short mode: the long tick with bit 6 overwritten by the feedback (43_noise.md R176; the tap is the spec's
decision D9). -/
def Obligations.ShortTickRule : Prop :=
  ∀ (x : ShiftReg) (i : Nat), i < 15 →
    (tickShort x).getLsbD i = if i = 6 then feedback x else (tickLong x).getLsbD i

/-- The long tick is a bijection, all ones is its fixed point and that of the short tick, and nothing else ticks to it in
long mode (43_noise.md R185). -/
def Obligations.LongTickBijective : Prop :=
  Function.Bijective tickLong ∧ (∀ x : ShiftReg, tickLong x = 0x7FFF ↔ x = 0x7FFF) ∧ tickShort 0x7FFF = 0x7FFF

/-- In short mode bits 6 to 0 are a shift register of their own: their next value does not depend on bits 14 to 7
(43_noise.md R186). -/
def Obligations.ShortModeSevenBits : Prop :=
  ∀ x y : ShiftReg, x.extractLsb' 0 7 = y.extractLsb' 0 7 →
    (tickShort x).extractLsb' 0 7 = (tickShort y).extractLsb' 0 7

/-- From all zeros the long mode returns to all zeros after exactly 32767 ticks and visits no value twice before, so never
the lock-up value (43_noise.md R184, the spec's computation). -/
def Obligations.LongCycleLength : Prop :=
  ticks tickLong 32767 0 = 0 ∧
  (∀ m n, m < n → n < 32767 → ticks tickLong m 0 ≠ ticks tickLong n 0) ∧ (∀ n, ticks tickLong n 0 ≠ 0x7FFF)

/-- From all zeros the short mode is on a cycle of 127 register values after one tick, all zeros is not on it, and the
sequence of bit 0 has least period 127 from the first tick on (43_noise.md R184, the spec's computation). -/
def Obligations.ShortCycleLength : Prop :=
  (∀ n, 1 ≤ n → ticks tickShort (n + 127) 0 = ticks tickShort n 0 ∧ ticks tickShort n 0 ≠ 0) ∧
  (∀ q, 0 < q → (∀ n, 1 ≤ n → (ticks tickShort (n + q) 0).getLsbD 0 = (ticks tickShort n 0).getLsbD 0) → 127 ≤ q)

/-- Tick cadence and output of the noise generator: an enabled RENDER.N completes; with `e` and `b` the counter and register
after the first wrap test, frame `n` shows bit 0 of `b` after `(e + n) div (period + 1)` more ticks, `-gain` for a 1 and
`+gain` for a 0 (43_noise.md R177 to R180); the ticks are short when `width > 1/2` and long otherwise. That the tick comes
before the frame's sample is the spec's decision D19, the polarity of the mode D4.
Parameters in range (60_exceptions.md R230; log 9). -/
def Obligations.NoiseCadence : Prop :=
  ∀ (F : Nat) (d : Slice) (s : State) (p e : Nat) (k : Bool) (b : ShiftReg), s.ng.live = true → F ≤ d.len →
    Memory.wf s.dst → s.inRange .noise → s.ng.P.trigger > 1 / 2 → 0 < s.ng.P.frequency →
    p = period s.sampleRate s.ng.P.frequency → k = decide (s.ng.P.width > 1 / 2) →
    e = (if s.ng.c > p then 0 else s.ng.c) →
    b = (if s.ng.c > p then (if k then tickShort else tickLong) s.ng.lfsr else s.ng.lfsr) →
    ∃ t, exec (.renderN F d) s = .next t ∧
      (∀ n, n < F → Memory.read t.dst (d.base + n) =
        if (ticks (if k then tickShort else tickLong) ((e + n) / (p + 1)) b).getLsbD 0 = true then -s.ng.P.gain else s.ng.P.gain) ∧
      t.ng.c = (if F = 0 then s.ng.c else (e + (F - 1)) % (p + 1) + 1) ∧
      t.ng.lfsr = (if F = 0 then s.ng.lfsr else ticks (if k then tickShort else tickLong) ((e + (F - 1)) / (p + 1)) b)

/-- Policy RETAIN: a disabled RENDER.N completes, writes no sample and leaves the shift register and the tick counter
(43_noise.md R183; the spec's decision D5).
Parameters in range (60_exceptions.md R230; log 9). -/
def Obligations.DisabledNoiseRetains : Prop :=
  ∀ (F : Nat) (d : Slice) (s : State), s.ng.live = true → F ≤ d.len → s.inRange .noise → s.ng.P.trigger ≤ 1 / 2 →
    ∃ t, exec (.renderN F d) s = .next t ∧ t.ng.lfsr = s.ng.lfsr ∧ t.ng.c = s.ng.c ∧ t.dst = s.dst ∧
      t.pg = s.pg ∧ t.wg = s.wg

/-- Noise lock-up: a live register at `0x7FFF` stays there through every operation but DESTROY.N, whatever the mode, and an
enabled block then writes `-gain` throughout (43_noise.md R185, R187; 70_reset_and_hazards.md R266).
That a disabled block leaves the register is the policy RETAIN, decision D5 (log 7). Parameters of a RENDER in range
(60_exceptions.md R230; log 9). -/
def Obligations.LockUpPersists : Prop :=
  ∀ (i : Instr) (s t : State), renderInRange i s → exec i s = .next t → s.ng.live = true → s.ng.lfsr = 0x7FFF → i ≠ .destroyN →
    t.ng.live = true ∧ t.ng.lfsr = 0x7FFF ∧
    (∀ F d, i = .renderN F d → Memory.wf s.dst → s.ng.P.trigger > 1 / 2 →
      ∀ n, n < F → Memory.read t.dst (d.base + n) = -s.ng.P.gain)

/-! ## The whole machine -/

/-- Every well-formed operation completes on a generator of the right liveness, a RENDER also needing a positive frequency
where its trigger enables it (40_block_datapath.md R114; 44_control_system.md; 60_exceptions.md R230).
A RENDER's parameters are in range (R230; log 9). -/
def Obligations.OperationsComplete : Prop :=
  ∀ (i : Instr) (s : State), i.wellFormed = true →
    (i = createOf i.channel → s.live i.channel = false) → (i ≠ createOf i.channel → s.live i.channel = true) →
    ((∃ F d, i = renderOf i.channel F d) → s.inRange i.channel ∧
      (triggerOf s i.channel > 1 / 2 → 0 < frequencyOf s i.channel)) →
    ∃ t, exec i s = .next t

/-- No operation on one generator reads or writes the state of another (10_state.md R40): the others are unchanged, and what
it does to its own generator and to the samples is the same from any state with the same own generator, samples and sample
rate.
Parameters of a RENDER in range (60_exceptions.md R230; log 9). -/
def Obligations.GeneratorsIndependent : Prop :=
  ∀ (i : Instr) (s t : State), renderInRange i s → exec i s = .next t →
    (∀ g, g ≠ i.channel → sameGen g s t) ∧
    (∀ s' : State, s'.sampleRate = s.sampleRate → s'.dst = s.dst → sameGen i.channel s s' →
      ∃ t', exec i s' = .next t' ∧ sameGen i.channel t t' ∧ t'.dst = t.dst)

/-- Between two RENDERs of a generator only SETP, on its parameter registers, and POST, on the mailbox, can act: counters,
step index, table, shift register, snapshot and flag persist (10_state.md R43); each RENDER refreshes the latched
parameters.
Parameters of a RENDER in range (60_exceptions.md R230; log 9). -/
def Obligations.PersistBetweenRenders : Prop :=
  ∀ (i : Instr) (s t : State), renderInRange i s → exec i s = .next t →
    ((∀ F d, i ≠ .renderP F d) → i ≠ .createP → i ≠ .destroyP → t.pg = { s.pg with P := t.pg.P }) ∧
    ((∀ F d, i ≠ .renderW F d) → i ≠ .createW → i ≠ .destroyW →
      t.wg = { s.wg with P := t.wg.P, slot := t.wg.slot }) ∧
    ((∀ F d, i ≠ .renderN F d) → i ≠ .createN → i ≠ .destroyN → t.ng = { s.ng with P := t.ng.P }) ∧
    (t.pg.P = s.pg.P ∨ (∃ r v, setpTarget i = some (r, v) ∧ r.channel = .pulse) ∨ i = .createP ∨ i = .destroyP) ∧
    (t.wg.P = s.wg.P ∨ (∃ r v, setpTarget i = some (r, v) ∧ r.channel = .wave) ∨ i = .createW ∨ i = .destroyW) ∧
    (t.ng.P = s.ng.P ∨ (∃ r v, setpTarget i = some (r, v) ∧ r.channel = .noise) ∨ i = .createN ∨ i = .destroyN) ∧
    (t.wg.slot = s.wg.slot ∨ (∃ w, i = .wload w) ∨ (∃ c, i = .wpost c) ∨ (∃ F d, i = .renderW F d) ∨ i = .createW ∨
      i = .destroyW) ∧
    (∀ F d, (i = .renderP F d → t.pg.S = s.pg.P) ∧ (i = .renderW F d → t.wg.S = s.wg.P) ∧
      (i = .renderN F d → t.ng.S = s.ng.P))

/-- The control thread's operations change the mailbox and nothing else, and of the host's operations only RENDER.W, CREATE.W
and DESTROY.W reach the mailbox (60_exceptions.md R237, 10_state.md R44).
Parameters of a RENDER in range (60_exceptions.md R230; log 9). -/
def Obligations.ControlThreadTouchesOnlyMailbox : Prop :=
  ∀ (i : Instr) (s t : State), renderInRange i s → exec i s = .next t →
    (i.agent = .ctl → t = { s with wg.slot := t.wg.slot }) ∧
    (i.agent = .host → (∀ F d, i ≠ .renderW F d) → i ≠ .createW → i ≠ .destroyW → t.wg.slot = s.wg.slot)

/-- No operation writes the sample rate or the queue, and only a RENDER writes samples (10_state.md R21, R44; 00_scope.md
R7).
Parameters of a RENDER in range (60_exceptions.md R230; log 9). -/
def Obligations.OnlyRenderWritesSamples : Prop :=
  ∀ (i : Instr) (s t : State), renderInRange i s → exec i s = .next t →
    t.sampleRate = s.sampleRate ∧ t.pending = s.pending ∧ ((∀ g F d, i ≠ renderOf g F d) → t.dst = s.dst)

/-- Every step keeps the invariant of the state: canonical samples, nothing held by a generator that is not live, and the
enable flag in agreement with the latched trigger where the latched parameters are in range (10_state.md R23, R29; log 3,
log 4). Where the step runs a RENDER, its parameters are in range (60_exceptions.md R230; log 9). -/
def Obligations.StepKeepsInvariant : Prop :=
  ∀ s t : State, s.inv → s.stepInRange → step s = .next t → t.inv

/-- The invariant holds right after reset, whose state is the model's choice (log 1; log 3 for the registers of generators
that are not live, log 4 for the sample memory). -/
def Obligations.InvariantAtReset : Prop := State.reset.inv

/-- Under the host's contract the parameters stay legal and the counters within their bounds, from every such state
(10_state.md R41; 00_scope.md R16; 41_pulse.md R125; 42_wavetable.md R150; 43_noise.md R181). Of a generator that is not
live, after a DESTROY, they speak of the reset values that the model lets its registers hold, the model's choice (log 3). -/
def Obligations.ContractKeepsBounds : Prop :=
  ∀ s t : State, s.parametersLegal → s.pendingLegal → s.countersBounded → step s = .next t →
    t.parametersLegal ∧ t.pendingLegal ∧ t.countersBounded

/-- Under the host's contract no step faults (60_exceptions.md R227 V1, R228; 70_reset_and_hazards.md R256). -/
def Obligations.ContractNeverFaults : Prop :=
  ∀ s : State, s.parametersLegal → ∀ e, step s ≠ .fault e

/-- The contract and the bounds hold right after reset, before any command is issued; that state is the model's choice (log
1, log 2; log 3 for the registers of generators that are not live; their values are those of 10_state.md R42). -/
def Obligations.ContractAtReset : Prop :=
  State.reset.parametersLegal ∧ State.reset.pendingLegal ∧ State.reset.countersBounded
end

