-- ==== Sys2Proof/Laws/Memory.lean ====
section
/-! SUPPORT. The sample memory: read after write, the canonical form, and that reads determine a canonical memory. -/

namespace Sys2Proof.Machine

theorem Memory.write_keys {m : Memory} {a : Nat} {v : Sample} {x : Nat × Sample}
    (h : x ∈ Memory.write m a v) : x = (a, v) ∧ v ≠ Memory.unlisted ∨ x ∈ m := by
  induction m with
  | nil =>
    simp only [Memory.write] at h
    split at h
    · simp at h
    · exact .inl ⟨by simpa using h, ‹_›⟩
  | cons y m ih =>
    obtain ⟨b, w⟩ := y
    simp only [Memory.write] at h
    split_ifs at h <;> simp_all <;> tauto

/-- Every write keeps the canonical form. -/
theorem Memory.write_wf {m : Memory} (hm : Memory.wf m) (a : Nat) (v : Sample) : Memory.wf (Memory.write m a v) := by
  refine ⟨?_, fun x hx => ?_⟩
  · have hs := hm.1
    clear hm
    induction m with
    | nil => simp only [Memory.write]; split <;> simp
    | cons y m ih =>
      obtain ⟨b, w⟩ := y
      obtain ⟨hb, hm⟩ := List.pairwise_cons.1 hs
      simp only [Memory.write]
      split_ifs with h1 h2 h3 h4
      · exact hs
      · refine List.pairwise_cons.2 ⟨fun z hz => ?_, hs⟩
        rcases List.mem_cons.1 hz with rfl | hz
        · exact h1
        · exact h1.trans (hb z hz)
      · exact hm
      · exact List.pairwise_cons.2 ⟨fun z hz => h3 ▸ hb z hz, hm⟩
      · refine List.pairwise_cons.2 ⟨fun z hz => ?_, ih hm⟩
        rcases Memory.write_keys hz with ⟨rfl, -⟩ | hz
        · show b < a; omega
        · exact hb z hz
  · rcases Memory.write_keys hx with ⟨rfl, hv⟩ | hx
    · exact hv
    · exact hm.2 x hx

/-- An address below every listed one reads as an unlisted address does. -/
theorem Memory.read_below {m : Memory} {a : Nat} (h : ∀ x ∈ m, a < x.1) : Memory.read m a = Memory.unlisted := by
  induction m with
  | nil => rfl
  | cons y m ih =>
    have hy := h y (by simp)
    simp only [Memory.read]
    rw [if_neg (by omega)]
    exact ih fun x hx => h x (by simp [hx])

/-- A read after a write to the same element gives the sample written. -/
theorem Memory.read_write_same {m : Memory} (hm : Memory.wf m) (a : Nat) (v : Sample) :
    Memory.read (Memory.write m a v) a = v := by
  have hs := hm.1
  clear hm
  induction m with
  | nil => simp only [Memory.write]; split <;> simp_all [Memory.read]
  | cons y m ih =>
    obtain ⟨b, w⟩ := y
    obtain ⟨hb, hm⟩ := List.pairwise_cons.1 hs
    simp only [Memory.write]
    split_ifs with h1 h2 h3 h4
    · rw [h2]
      refine Memory.read_below fun x hx => ?_
      rcases List.mem_cons.1 hx with rfl | hx
      · exact h1
      · exact h1.trans (hb x hx)
    · simp [Memory.read]
    · rw [h4]
      exact Memory.read_below fun x hx => h3 ▸ hb x hx
    · simp [Memory.read]
    · simp only [Memory.read]
      rw [if_neg h3]
      exact ih hm

/-- A write leaves every other element alone. -/
theorem Memory.read_write_other (m : Memory) {a b : Nat} (v : Sample) (h : b ≠ a) :
    Memory.read (Memory.write m a v) b = Memory.read m b := by
  induction m with
  | nil => simp only [Memory.write]; split <;> simp [Memory.read, h]
  | cons y m ih =>
    obtain ⟨c, w⟩ := y
    simp only [Memory.write]
    split_ifs with h1 h2 h3 h4
    · rfl
    · simp [Memory.read, h]
    · subst h3; simp [Memory.read, h]
    · subst h3; simp [Memory.read, h]
    · simp only [Memory.read, ih]

/-- Canonical memories that read alike are the same list. -/
theorem Memory.ext {m m' : Memory} (h : Memory.wf m) (h' : Memory.wf m')
    (heq : ∀ a, Memory.read m a = Memory.read m' a) : m = m' := by
  induction m generalizing m' with
  | nil =>
    cases m' with
    | nil => rfl
    | cons y m' =>
      have := heq y.1
      simp only [Memory.read, if_true] at this
      exact absurd this.symm (h'.2 y (by simp))
  | cons x m ih =>
    obtain ⟨hx, hm⟩ := List.pairwise_cons.1 h.1
    cases m' with
    | nil =>
      have := heq x.1
      simp only [Memory.read, if_true] at this
      exact absurd this (h.2 x (by simp))
    | cons y m' =>
      obtain ⟨hy, hm'⟩ := List.pairwise_cons.1 h'.1
      have hxy : x.1 = y.1 := by
        rcases Nat.lt_trichotomy x.1 y.1 with hlt | heq' | hlt
        · have hr := heq x.1
          rw [Memory.read_below (m := y :: m') (a := x.1)] at hr
          · simp only [Memory.read, if_true] at hr
            exact absurd hr (h.2 x (by simp))
          · intro z hz
            rcases List.mem_cons.1 hz with rfl | hz
            · exact hlt
            · exact hlt.trans (hy z hz)
        · exact heq'
        · have hr := heq y.1
          rw [Memory.read_below (m := x :: m) (a := y.1)] at hr
          · simp only [Memory.read, if_true] at hr
            exact absurd hr.symm (h'.2 y (by simp))
          · intro z hz
            rcases List.mem_cons.1 hz with rfl | hz
            · exact hlt
            · exact hlt.trans (hx z hz)
      have hval : x.2 = y.2 := by
        have hr := heq x.1
        simpa [Memory.read, hxy] using hr
      have hxy' : x = y := Prod.ext hxy hval
      subst hxy'
      congr 1
      refine ih ⟨hm, fun z hz => h.2 z (by simp [hz])⟩ ⟨hm', fun z hz => h'.2 z (by simp [hz])⟩ fun a => ?_
      by_cases ha : a = x.1
      · rw [ha, Memory.read_below hx, Memory.read_below hy]
      · have hr := heq a
        simpa [Memory.read, ha] using hr

/-- Writes to different elements commute on a canonical memory. -/
theorem Memory.write_comm {m : Memory} (hm : Memory.wf m) {a b : Nat} (v w : Sample) (h : a ≠ b) :
    Memory.write (Memory.write m a v) b w = Memory.write (Memory.write m b w) a v := by
  refine Memory.ext (write_wf (write_wf hm _ _) _ _) (write_wf (write_wf hm _ _) _ _) fun x => ?_
  by_cases hb : x = b
  · subst hb
    rw [read_write_same (write_wf hm _ _), read_write_other _ _ (Ne.symm h), read_write_same hm]
  · rw [read_write_other _ _ hb]
    by_cases ha : x = a
    · subst ha
      rw [read_write_same hm, read_write_same (write_wf hm _ _)]
    · rw [read_write_other _ _ ha, read_write_other _ _ ha, read_write_other _ _ hb]

end Sys2Proof.Machine
end

