-- ==== Sys2Proof/Laws/Operands.lean ====
section
/-! SUPPORT. Facts about the computed operands: ranges of factors and thresholds. -/

namespace Sys2Proof.Machine

/-- A sign factor is `-1` or `+1`. -/
theorem signFactor_cases (b : Bool) : signFactor b = -1 ∨ signFactor b = 1 := by cases b <;> simp [signFactor]

/-- A sign factor lies in [-1, 1]. -/
theorem signFactor_range (b : Bool) : -1 ≤ signFactor b ∧ signFactor b ≤ 1 := by
  rcases signFactor_cases b with h | h <;> rw [h] <;> norm_num

/-- An amplitude lies in [-1, 1]. -/
theorem amplitude_range (n : Code) : -1 ≤ amplitude n ∧ amplitude n ≤ 1 := by
  have h : (n.toNat : Sample) ≤ 15 := by
    have := n.isLt
    exact_mod_cast Nat.le_of_lt_succ this
  have h0 : (0 : Sample) ≤ (n.toNat : Sample) := Nat.cast_nonneg _
  unfold amplitude
  constructor
  · rw [le_div_iff₀ (by norm_num)]; linarith
  · rw [div_le_iff₀ (by norm_num)]; linarith

/-- MIX with the identity rounding is the product. -/
@[simp] theorem mix_eq (f g : Sample) : mix f g = f * g := rfl

/-- A factor in [-1, 1] scaled by a gain at or above 0 lies in [-gain, gain]. -/
theorem mix_range {f g : Sample} (hf : -1 ≤ f ∧ f ≤ 1) (hg : 0 ≤ g) : -g ≤ mix f g ∧ mix f g ≤ g := by
  rw [mix_eq]
  constructor <;> nlinarith [hf.1, hf.2]

/-- At a frequency of at least 1 the period is at most the sample rate. -/
theorem period_le_rate {r : ℕ+} {f : Sample} (h : 1 ≤ f) : period r f ≤ r := by
  have hr : (0 : Sample) ≤ ((r : Nat) : Sample) := Nat.cast_nonneg _
  have hq : ((r : Nat) : Sample) / f ≤ ((r : Nat) : Sample) := div_le_self hr h
  have hz : (((r : Nat) : Sample) / f).floor ≤ ((r : Nat) : Int) := by
    have := (Rat.floor_le (((r : Nat) : Sample) / f)).trans hq
    exact_mod_cast this
  unfold period
  omega

/-- Entry `i` of UNPACK is the four bits of its word from bit `8 * ((i mod 4) div 2)` on, plus 4 for an even `i`
(30_encoding.md R77). -/
theorem unpackEntry_eq (word : PackedWord) (i : Nat) :
    unpackEntry word i = word.extractLsb' (i % 4 / 2 * 8 + if i % 2 = 0 then 4 else 0) 4 := by
  have h : i % 4 / 2 = 0 ∨ i % 4 / 2 = 1 := by omega
  have h' : i % 2 = 0 ∨ i % 2 = 1 := by omega
  ext j hj
  rcases h with h | h <;> rcases h' with h' | h' <;> interval_cases j <;> simp [unpackEntry, h, h']

/-- Entry `i` of UNPACK comes from word `i div 4` (30_encoding.md R77). -/
theorem unpack_get (words : Vector PackedWord 8) (i : Fin 32) :
    (unpack words).get i = unpackEntry (words.get (Fin.ofNat 8 (i.val / 4))) i.val := by
  change (Vector.ofFn fun j : Fin 32 => unpackEntry (words.get (Fin.ofNat 8 (j.val / 4))) j.val)[i.val] = _
  rw [Vector.getElem_ofFn]

/-- Bit by bit, the long tick shifts right by one and shifts the feedback in at bit 14 (43_noise.md R175). -/
theorem tickLong_getLsbD (x : ShiftReg) (i : Nat) :
    (tickLong x).getLsbD i = if i = 14 then feedback x else x.getLsbD (i + 1) && decide (i < 14) := by
  have h : (tickLong x).getLsbD i = (BitVec.ofBool (feedback x) ++ x.extractLsb' 1 14).getLsbD i := rfl
  rw [h, BitVec.getLsbD_append]
  by_cases hi : i < 14
  · rw [if_pos hi, BitVec.getLsbD_extractLsb', if_neg (by omega)]; simp [hi, Nat.add_comm]
  · rw [if_neg hi, BitVec.getLsbD_ofBool]
    by_cases h14 : i = 14 <;> simp [h14, hi]; omega

/-- Bit by bit, the short tick also puts the feedback at bit 6 (43_noise.md R176). -/
theorem tickShort_getLsbD (x : ShiftReg) (i : Nat) :
    (tickShort x).getLsbD i = if i = 14 ∨ i = 6 then feedback x else x.getLsbD (i + 1) && decide (i < 14) := by
  have h : (tickShort x).getLsbD i = (BitVec.ofBool (feedback x) ++ x.extractLsb' 8 7 ++ BitVec.ofBool
        (feedback x) ++ x.extractLsb' 1 6).getLsbD i := rfl
  rw [h, BitVec.getLsbD_append, BitVec.getLsbD_append, BitVec.getLsbD_append]
  simp only [BitVec.getLsbD_extractLsb', BitVec.getLsbD_ofBool]
  by_cases hi : i < 15
  · interval_cases i <;> simp +decide
  · have : x.getLsbD (i + 1) = false := BitVec.getLsbD_of_ge _ _ (by omega)
    rw [if_neg (by omega), if_neg (by omega), if_neg (by omega), if_neg (by omega)]; simp [this]; omega

/-- The mode selects the form of the tick (43_noise.md R177). -/
theorem lfsrTick_eq (k : Bool) : lfsrTick k = if k then tickShort else tickLong := by
  cases k <;> rfl

/-- Codes fit when each is at most 15 (30_encoding.md R80). -/
theorem codesFit_iff {c : Vector Nat 32} : codesFit c = true ↔ ∀ k : Fin 32, c.get k ≤ 15 := by
  unfold codesFit
  rw [List.all_eq_true]
  constructor
  · intro h k
    have := h (c.get k) (by simp [Vector.get])
    simpa using this
  · intro h x hx
    simp only [Vector.mem_toList_iff, Vector.mem_iff_getElem] at hx
    obtain ⟨i, hi, rfl⟩ := hx
    exact decide_eq_true (h ⟨i, hi⟩)

/-- Entry `k` of the table of a WPOST. -/
theorem tableOfCodes_get (c : Vector Nat 32) (k : Fin 32) : (tableOfCodes c).get k = BitVec.ofNat 4 (c.get k) := by
  change (c.map (BitVec.ofNat 4))[k.val] = _
  rw [Vector.getElem_map]
  rfl

end Sys2Proof.Machine
end

