-- ==== Sys2Proof/Laws/State.lean ====
section
/-! SUPPORT. One lemma per field of the state and update of it, and what the generator updates leave alone. -/

namespace Sys2Proof.Machine

variable (s : State) (g : PulseGen) (w : WaveGen) (n : NoiseGen) (m : Memory) (q : List Command)

@[simp] theorem State.setPg_sampleRate : (s.setPg g).sampleRate = s.sampleRate := rfl
@[simp] theorem State.setPg_pg : (s.setPg g).pg = g := rfl
@[simp] theorem State.setPg_wg : (s.setPg g).wg = s.wg := rfl
@[simp] theorem State.setPg_ng : (s.setPg g).ng = s.ng := rfl
@[simp] theorem State.setPg_dst : (s.setPg g).dst = s.dst := rfl
@[simp] theorem State.setPg_pending : (s.setPg g).pending = s.pending := rfl

@[simp] theorem State.setWg_sampleRate : (s.setWg w).sampleRate = s.sampleRate := rfl
@[simp] theorem State.setWg_pg : (s.setWg w).pg = s.pg := rfl
@[simp] theorem State.setWg_wg : (s.setWg w).wg = w := rfl
@[simp] theorem State.setWg_ng : (s.setWg w).ng = s.ng := rfl
@[simp] theorem State.setWg_dst : (s.setWg w).dst = s.dst := rfl
@[simp] theorem State.setWg_pending : (s.setWg w).pending = s.pending := rfl

@[simp] theorem State.setNg_sampleRate : (s.setNg n).sampleRate = s.sampleRate := rfl
@[simp] theorem State.setNg_pg : (s.setNg n).pg = s.pg := rfl
@[simp] theorem State.setNg_wg : (s.setNg n).wg = s.wg := rfl
@[simp] theorem State.setNg_ng : (s.setNg n).ng = n := rfl
@[simp] theorem State.setNg_dst : (s.setNg n).dst = s.dst := rfl
@[simp] theorem State.setNg_pending : (s.setNg n).pending = s.pending := rfl

@[simp] theorem State.setDst_sampleRate : (s.setDst m).sampleRate = s.sampleRate := rfl
@[simp] theorem State.setDst_pg : (s.setDst m).pg = s.pg := rfl
@[simp] theorem State.setDst_wg : (s.setDst m).wg = s.wg := rfl
@[simp] theorem State.setDst_ng : (s.setDst m).ng = s.ng := rfl
@[simp] theorem State.setDst_dst : (s.setDst m).dst = m := rfl
@[simp] theorem State.setDst_pending : (s.setDst m).pending = s.pending := rfl

@[simp] theorem State.setPending_sampleRate : (s.setPending q).sampleRate = s.sampleRate := rfl
@[simp] theorem State.setPending_pg : (s.setPending q).pg = s.pg := rfl
@[simp] theorem State.setPending_wg : (s.setPending q).wg = s.wg := rfl
@[simp] theorem State.setPending_ng : (s.setPending q).ng = s.ng := rfl
@[simp] theorem State.setPending_dst : (s.setPending q).dst = s.dst := rfl
@[simp] theorem State.setPending_pending : (s.setPending q).pending = q := rfl

@[simp] theorem State.live_setDst (c : Channel) : (s.setDst m).live c = s.live c := by cases c <;> rfl
@[simp] theorem State.live_setPending (c : Channel) : (s.setPending q).live c = s.live c := by cases c <;> rfl

/-- SWAP in one line: the waiting table, if any, becomes the active one, and the mailbox is empty. -/
theorem WaveGen.swap_eq : w.swap = { w with table := w.slot.getD w.table, slot := none } := by
  obtain ⟨lv, p, sn, en, sc, st, tb, sl⟩ := w
  cases sl <;> rfl

@[simp] theorem parRead_setDst (r : ParReg) : parRead (s.setDst m) r = parRead s r := by cases r <;> rfl
@[simp] theorem parRead_setPending (r : ParReg) : parRead (s.setPending q) r = parRead s r := by cases r <;> rfl

/-- Reading the parameter register just written gives the value written. -/
@[simp] theorem parRead_parWrite_same (r : ParReg) (v : Sample) : parRead (parWrite s r v) r = v := by
  cases r <;> rfl

/-- Writing one parameter register leaves every other alone. -/
theorem parRead_parWrite_other (r r' : ParReg) (v : Sample) (h : r' ≠ r) :
    parRead (parWrite s r v) r' = parRead s r' := by
  cases r <;> cases r' <;> first | rfl | exact absurd rfl h

/-- A parameter write changes nothing but the parameter registers. -/
theorem parWrite_frame (r : ParReg) (v : Sample) :
    (parWrite s r v).sampleRate = s.sampleRate ∧ (parWrite s r v).dst = s.dst ∧
    (parWrite s r v).pending = s.pending ∧
    (parWrite s r v).pg = { s.pg with P := (parWrite s r v).pg.P } ∧
    (parWrite s r v).wg = { s.wg with P := (parWrite s r v).wg.P } ∧
    (parWrite s r v).ng = { s.ng with P := (parWrite s r v).ng.P } := by
  cases r <;> exact ⟨rfl, rfl, rfl, rfl, rfl, rfl⟩

end Sys2Proof.Machine
end

