-- ==== Sys2Proof/Laws/Render.lean ====
section
/-! SUPPORT. What the frame loop and the RENDER operations do: one inversion lemma each, cited instead of unfolding. -/

namespace Sys2Proof.Machine

variable {γ : Type} (frame : γ → Sample × γ) (gain : Sample)

/-- `m + n` frames are `m` frames and then `n` more from the next element on (40_block_datapath.md R115). -/
theorem renderLoop_add (m n a : Nat) (g : γ) (mem : Memory) :
    renderLoop frame gain (m + n) a g mem =
      renderLoop frame gain n (a + m) (renderLoop frame gain m a g mem).1 (renderLoop frame gain m a g mem).2 := by
  induction m generalizing a g mem with
  | zero => simp [renderLoop]
  | succ m ih =>
    rw [show m + 1 + n = m + n + 1 by omega]
    simp only [renderLoop]
    rw [ih, show a + 1 + m = a + (m + 1) by omega]

/-- After `n` frames the generator is the frame micro-operation applied `n` times. -/
theorem renderLoop_gen (n a : Nat) (g : γ) (mem : Memory) :
    (renderLoop frame gain n a g mem).1 = (fun x => (frame x).2)^[n] g := by
  induction n generalizing a g mem with
  | zero => rfl
  | succ n ih => simp only [renderLoop, ih, Function.iterate_succ_apply]

/-- The frame loop keeps the sample memory canonical. -/
theorem renderLoop_wf (n a : Nat) (g : γ) {mem : Memory} (h : Memory.wf mem) :
    Memory.wf (renderLoop frame gain n a g mem).2 := by
  induction n generalizing a g mem with
  | zero => exact h
  | succ n ih => exact ih _ _ (Memory.write_wf h _ _)

/-- The frame loop writes no element outside its `n` (40_block_datapath.md R109). -/
theorem renderLoop_read_outside (n a : Nat) (g : γ) (mem : Memory) {x : Nat} (h : x < a ∨ a + n ≤ x) :
    Memory.read (renderLoop frame gain n a g mem).2 x = Memory.read mem x := by
  induction n generalizing a g mem with
  | zero => rfl
  | succ n ih =>
    simp only [renderLoop]
    rw [ih _ _ _ (by omega), Memory.read_write_other _ _ (by omega)]

/-- Element `k` holds the sample of frame `k` (20_memory.md R53). -/
theorem renderLoop_read (n a : Nat) (g : γ) {mem : Memory} (hm : Memory.wf mem) {k : Nat} (h : k < n) :
    Memory.read (renderLoop frame gain n a g mem).2 (a + k) =
      mix (frame ((fun x => (frame x).2)^[k] g)).1 gain := by
  induction n generalizing a g mem k with
  | zero => omega
  | succ n ih =>
    simp only [renderLoop]
    cases k with
    | zero =>
      rw [renderLoop_read_outside _ _ _ _ _ _ (by omega)]
      simpa using Memory.read_write_same hm a _
    | succ k =>
      have := ih (a + 1) (frame g).2 (Memory.write_wf hm a (mix (frame g).1 gain)) (k := k) (by omega)
      rw [show a + (k + 1) = a + 1 + k by omega, this]
      rfl

/-- When the frames of a block answer: not at all when disabled, and by the loop when the frequency is positive. -/
theorem renderFrames_ok_iff {ch : Channel} {enabled : Bool} {frequency : Sample} {frames : Nat} {dst : Slice} {g g' : γ}
    {m m' : Memory} :
    renderFrames ch enabled frequency gain frame frames dst g m = .ok (g', m') ↔
      (enabled = false ∧ g' = g ∧ m' = m) ∨
      (enabled = true ∧ 0 < frequency ∧ (g', m') = renderLoop frame gain frames dst.base g m) := by
  cases enabled <;> simp only [renderFrames, if_true, Bool.false_eq_true, if_false]
  · simp [eq_comm]
  · by_cases hf : frequency ≤ 0
    · simp [hf, not_lt.2 hf]
    · simp [hf, not_le.1 hf, eq_comm]

/-- When the frames of a block fault: an enabled generator with a frequency that is not positive (60_exceptions.md R228). -/
theorem renderFrames_error_iff {ch : Channel} {enabled : Bool} {frequency : Sample} {frames : Nat} {dst : Slice} {g : γ}
    {m : Memory} {e : Fault} :
    renderFrames ch enabled frequency gain frame frames dst g m = .error e ↔
      enabled = true ∧ frequency ≤ 0 ∧ e = .frequencyNotPositive ch := by
  cases enabled <;> simp only [renderFrames, if_true, Bool.false_eq_true, if_false]
  · simp
  · by_cases hf : frequency ≤ 0 <;> simp [hf, eq_comm]

/-- When a RENDER answers a next state: live, slice long enough, and its frames answer. -/
theorem renderBlock_next_iff {ch : Channel} {frames : Nat} {dst : Slice} {s t : State} {put : γ → State}
    {block : Except Fault (γ × Memory)} :
    renderBlock ch frames dst s put block = .next t ↔
      s.live ch = true ∧ frames ≤ dst.len ∧ ∃ g m, block = .ok (g, m) ∧ t = (put g).setDst m := by
  unfold renderBlock whenLive Slice.holds
  cases hl : s.live ch
  · simp
  · by_cases hd : frames ≤ dst.len
    · rcases block with e | ⟨g, m⟩
      · simp [hd]
      · simp [hd, eq_comm]
    · simp [hd]

/-- When a RENDER faults: live, slice long enough, and its frames fault. -/
theorem renderBlock_fault_iff {ch : Channel} {frames : Nat} {dst : Slice} {s : State} {put : γ → State}
    {block : Except Fault (γ × Memory)} {e : Fault} :
    renderBlock ch frames dst s put block = .fault e ↔
      s.live ch = true ∧ frames ≤ dst.len ∧ block = .error e := by
  unfold renderBlock whenLive Slice.holds
  cases hl : s.live ch
  · simp
  · by_cases hd : frames ≤ dst.len
    · rcases block with e' | ⟨g, m⟩ <;> simp [hd]
    · simp [hd]

/-- RENDER.P, said once: the generator is entered (SNAP, enable test), and runs its frames when enabled. -/
theorem execRenderP_next_iff {F : Nat} {d : Slice} {s t : State} :
    execRenderP F d s = .next t ↔
      s.pg.live = true ∧ F ≤ d.len ∧
      ((s.pg.enter.enabled = false ∧ t = s.setPg s.pg.enter) ∨
       (s.pg.enter.enabled = true ∧ 0 < s.pg.P.frequency ∧ ∃ g m,
          (g, m) = renderLoop (s.pg.enter.frameOf s.sampleRate) s.pg.P.gain F d.base s.pg.enter s.dst ∧
          t = (s.setPg g).setDst m)) := by
  unfold execRenderP
  rw [renderBlock_next_iff]
  refine and_congr Iff.rfl (and_congr Iff.rfl ⟨?_, ?_⟩)
  · rintro ⟨g, m, h, rfl⟩
    rcases (renderFrames_ok_iff _ _).1 h with ⟨he, rfl, rfl⟩ | ⟨he, hf, h⟩
    · exact .inl ⟨he, rfl⟩
    · exact .inr ⟨he, hf, g, m, h, rfl⟩
  · rintro (⟨he, rfl⟩ | ⟨he, hf, g, m, h, rfl⟩)
    · exact ⟨s.pg.enter, s.dst, (renderFrames_ok_iff _ _).2 (.inl ⟨he, rfl, rfl⟩), rfl⟩
    · exact ⟨g, m, (renderFrames_ok_iff _ _).2 (.inr ⟨he, hf, h⟩), rfl⟩

@[simp] theorem WaveGen.enter_P (w : WaveGen) : w.enter.P = w.P := by
  simp [WaveGen.enter, WaveGen.swap_eq]
@[simp] theorem WaveGen.enter_S (w : WaveGen) : w.enter.S = w.P := by
  simp [WaveGen.enter, WaveGen.swap_eq]
@[simp] theorem WaveGen.enter_live (w : WaveGen) : w.enter.live = w.live := by
  simp [WaveGen.enter, WaveGen.swap_eq]
@[simp] theorem WaveGen.enter_enabled (w : WaveGen) : w.enter.enabled = enabledOf w.P.trigger := by
  simp [WaveGen.enter, WaveGen.swap_eq]
@[simp] theorem WaveGen.enter_sampleCounter (w : WaveGen) : w.enter.sampleCounter = w.sampleCounter := by
  simp [WaveGen.enter, WaveGen.swap_eq]
@[simp] theorem WaveGen.enter_stepIndex (w : WaveGen) : w.enter.stepIndex = w.stepIndex := by
  simp [WaveGen.enter, WaveGen.swap_eq]
@[simp] theorem WaveGen.enter_table (w : WaveGen) : w.enter.table = w.slot.getD w.table := by
  simp [WaveGen.enter, WaveGen.swap_eq]
@[simp] theorem WaveGen.enter_slot (w : WaveGen) : w.enter.slot = none := by
  simp [WaveGen.enter, WaveGen.swap_eq]

/-- RENDER.W, said once: the generator is entered (SNAP, SWAP, enable test), and runs its frames when enabled. -/
theorem execRenderW_next_iff {F : Nat} {d : Slice} {s t : State} :
    execRenderW F d s = .next t ↔
      s.wg.live = true ∧ F ≤ d.len ∧
      ((s.wg.enter.enabled = false ∧ t = s.setWg s.wg.enter) ∨
       (s.wg.enter.enabled = true ∧ 0 < s.wg.P.frequency ∧ ∃ g m,
          (g, m) = renderLoop (s.wg.enter.frameOf s.sampleRate) s.wg.P.gain F d.base s.wg.enter s.dst ∧
          t = (s.setWg g).setDst m)) := by
  unfold execRenderW
  rw [renderBlock_next_iff]
  simp only [WaveGen.enter_S]
  refine and_congr Iff.rfl (and_congr Iff.rfl ⟨?_, ?_⟩)
  · rintro ⟨g, m, h, rfl⟩
    rcases (renderFrames_ok_iff _ _).1 h with ⟨he, rfl, rfl⟩ | ⟨he, hf, h⟩
    · exact .inl ⟨he, rfl⟩
    · exact .inr ⟨he, hf, g, m, h, rfl⟩
  · rintro (⟨he, rfl⟩ | ⟨he, hf, g, m, h, rfl⟩)
    · exact ⟨s.wg.enter, s.dst, (renderFrames_ok_iff _ _).2 (.inl ⟨he, rfl, rfl⟩), rfl⟩
    · exact ⟨g, m, (renderFrames_ok_iff _ _).2 (.inr ⟨he, hf, h⟩), rfl⟩

/-- Entering the noise generator touches neither its tick counter nor its shift register (policy RETAIN). -/
theorem NoiseGen.enter_eq (n : NoiseGen) :
    n.enter = { n with S := n.P, enabled := enabledOf n.P.trigger } := by
  show (if enabledOf n.P.trigger then _ else _) = _
  split <;> rfl

/-- RENDER.N, said once: the generator is entered (SNAP, enable test), and runs its frames when enabled. -/
theorem execRenderN_next_iff {F : Nat} {d : Slice} {s t : State} :
    execRenderN F d s = .next t ↔
      s.ng.live = true ∧ F ≤ d.len ∧
      ((s.ng.enter.enabled = false ∧ t = s.setNg s.ng.enter) ∨
       (s.ng.enter.enabled = true ∧ 0 < s.ng.P.frequency ∧ ∃ g m,
          (g, m) = renderLoop (s.ng.enter.frameOf s.sampleRate) s.ng.P.gain F d.base s.ng.enter s.dst ∧
          t = (s.setNg g).setDst m)) := by
  have hS : s.ng.enter.S = s.ng.P := by rw [NoiseGen.enter_eq]
  unfold execRenderN
  rw [renderBlock_next_iff]
  simp only [hS]
  refine and_congr Iff.rfl (and_congr Iff.rfl ⟨?_, ?_⟩)
  · rintro ⟨g, m, h, rfl⟩
    rcases (renderFrames_ok_iff _ _).1 h with ⟨he, rfl, rfl⟩ | ⟨he, hf, h⟩
    · exact .inl ⟨he, rfl⟩
    · exact .inr ⟨he, hf, g, m, h, rfl⟩
  · rintro (⟨he, rfl⟩ | ⟨he, hf, g, m, h, rfl⟩)
    · exact ⟨s.ng.enter, s.dst, (renderFrames_ok_iff _ _).2 (.inl ⟨he, rfl, rfl⟩), rfl⟩
    · exact ⟨g, m, (renderFrames_ok_iff _ _).2 (.inr ⟨he, hf, h⟩), rfl⟩

end Sys2Proof.Machine
end

