-- ==== Sys2Proof/Laws/Exec.lean ====
section
/-! SUPPORT. When each operation answers a next state, and which: the inversion of `exec` and of `step`. -/

namespace Sys2Proof.Machine

theorem whenLive_next_iff {g : Channel} {s t : State} {k : Result} :
    whenLive g s k = .next t ↔ s.live g = true ∧ k = .next t := by
  unfold whenLive
  cases s.live g <;> simp

theorem whenNotLive_next_iff {g : Channel} {s t : State} {k : Result} :
    whenNotLive g s k = .next t ↔ s.live g = false ∧ k = .next t := by
  unfold whenNotLive
  cases s.live g <;> simp

/-- CREATE and DESTROY, said once. -/
theorem execCreateP_next_iff {s t : State} :
    execCreateP s = .next t ↔ s.pg.live = false ∧ t = s.setPg { PulseGen.dead with live := true } := by
  unfold execCreateP
  rw [whenNotLive_next_iff]
  exact and_congr Iff.rfl ⟨fun h => (Host.Outcome.next.inj h).symm, fun h => by rw [h]; rfl⟩

theorem execCreateW_next_iff {s t : State} :
    execCreateW s = .next t ↔ s.wg.live = false ∧ t = s.setWg { WaveGen.dead with live := true } := by
  unfold execCreateW
  rw [whenNotLive_next_iff]
  exact and_congr Iff.rfl ⟨fun h => (Host.Outcome.next.inj h).symm, fun h => by rw [h]; rfl⟩

theorem execCreateN_next_iff {s t : State} :
    execCreateN s = .next t ↔ s.ng.live = false ∧ t = s.setNg { NoiseGen.dead with live := true } := by
  unfold execCreateN
  rw [whenNotLive_next_iff]
  exact and_congr Iff.rfl ⟨fun h => (Host.Outcome.next.inj h).symm, fun h => by rw [h]; rfl⟩

theorem execDestroyP_next_iff {s t : State} :
    execDestroyP s = .next t ↔ s.pg.live = true ∧ t = s.setPg PulseGen.dead := by
  unfold execDestroyP
  rw [whenLive_next_iff]
  exact and_congr Iff.rfl ⟨fun h => (Host.Outcome.next.inj h).symm, fun h => by rw [h]⟩

theorem execDestroyW_next_iff {s t : State} :
    execDestroyW s = .next t ↔ s.wg.live = true ∧ t = s.setWg WaveGen.dead := by
  unfold execDestroyW
  rw [whenLive_next_iff]
  exact and_congr Iff.rfl ⟨fun h => (Host.Outcome.next.inj h).symm, fun h => by rw [h]⟩

theorem execDestroyN_next_iff {s t : State} :
    execDestroyN s = .next t ↔ s.ng.live = true ∧ t = s.setNg NoiseGen.dead := by
  unfold execDestroyN
  rw [whenLive_next_iff]
  exact and_congr Iff.rfl ⟨fun h => (Host.Outcome.next.inj h).symm, fun h => by rw [h]⟩

/-- Every SETP, said once. -/
theorem setp_next_iff {r : ParReg} {v : Sample} {s t : State} :
    setp r v s = .next t ↔ s.live r.channel = true ∧ t = parWrite s r v := by
  unfold setp
  rw [whenLive_next_iff]
  exact and_congr Iff.rfl ⟨fun h => (Host.Outcome.next.inj h).symm, fun h => by rw [h]⟩

/-- A SETP instruction is the shared write of its target register. -/
theorem exec_setp {i : Instr} {r : ParReg} {v : Sample} (h : setpTarget i = some (r, v)) (s : State) :
    exec i s = setp r v s := by
  cases i <;> simp only [setpTarget, Option.some.injEq, Prod.mk.injEq, reduceCtorEq] at h <;>
    (obtain ⟨rfl, rfl⟩ := h; rfl)

/-- WLOAD, said once. -/
theorem execWload_next_iff {w : Vector PackedWord 8} {s t : State} :
    execWload w s = .next t ↔ s.wg.live = true ∧ t = s.setWg (s.wg.post (unpack w)) := by
  unfold execWload
  rw [whenLive_next_iff]
  exact and_congr Iff.rfl ⟨fun h => (Host.Outcome.next.inj h).symm, fun h => by rw [h]⟩

/-- WPOST, said once. -/
theorem execWpost_next_iff {c : Vector Nat 32} {s t : State} :
    execWpost c s = .next t ↔
      s.wg.live = true ∧ codesFit c = true ∧ t = s.setWg (s.wg.post (tableOfCodes c)) := by
  unfold execWpost
  rw [whenLive_next_iff]
  refine and_congr Iff.rfl ?_
  cases codesFit c <;> simp [eq_comm]

/-- What a step can do: idle with nothing pending, run the decoded operation, or refuse a command that is none. -/
theorem step_eq (s : State) :
    step s = match s.pending with
      | [] => .next s
      | c :: rest => match decode c with
        | .ok i => exec i (s.setPending rest)
        | .error e => .refused (refusalOf e) := by
  unfold step fetch
  cases s.pending <;> rfl

/-- A next state of a step comes from idling or from one decoded operation. -/
theorem step_next_cases {s t : State} (h : step s = .next t) :
    (s.pending = [] ∧ t = s) ∨
    ∃ c rest i, s.pending = c :: rest ∧ decode c = .ok i ∧ exec i (s.setPending rest) = .next t := by
  rw [step_eq] at h
  cases hp : s.pending with
  | nil => simp only [hp] at h; exact .inl ⟨rfl, (Host.Outcome.next.inj h).symm⟩
  | cons c rest =>
    simp only [hp] at h
    cases hd : decode c with
    | error e => simp [hd] at h
    | ok i => simp only [hd] at h; exact .inr ⟨c, rest, i, rfl, hd, h⟩

/-- A fault comes only from a RENDER of a live enabled generator whose frequency register is not positive
(60_exceptions.md R228). -/
theorem exec_fault_cases {i : Instr} {s : State} {e : Fault} (h : exec i s = .fault e) :
    ∃ g F d, i = renderOf g F d ∧ s.live g = true ∧ F ≤ d.len ∧ enabledOf (triggerOf s g) = true ∧
      frequencyOf s g ≤ 0 ∧ e = .frequencyNotPositive g := by
  cases i with
  | renderP F d =>
    obtain ⟨hl, hd, hb⟩ := renderBlock_fault_iff.1 h
    obtain ⟨he, hf, rfl⟩ := (renderFrames_error_iff _ _).1 hb
    exact ⟨.pulse, F, d, rfl, hl, hd, he, hf, rfl⟩
  | renderW F d =>
    obtain ⟨hl, hd, hb⟩ := renderBlock_fault_iff.1 h
    obtain ⟨he, hf, rfl⟩ := (renderFrames_error_iff _ _).1 hb
    exact ⟨.wave, F, d, rfl, hl, hd, by simpa [triggerOf] using he, by simpa [frequencyOf] using hf, rfl⟩
  | renderN F d =>
    obtain ⟨hl, hd, hb⟩ := renderBlock_fault_iff.1 h
    obtain ⟨he, hf, rfl⟩ := (renderFrames_error_iff _ _).1 hb
    rw [NoiseGen.enter_eq] at he hf
    exact ⟨.noise, F, d, rfl, hl, hd, he, hf, rfl⟩
  | createP => simp only [exec, execCreateP, whenNotLive] at h; split at h <;> cases h
  | createW => simp only [exec, execCreateW, whenNotLive] at h; split at h <;> cases h
  | createN => simp only [exec, execCreateN, whenNotLive] at h; split at h <;> cases h
  | destroyP => simp only [exec, execDestroyP, whenLive] at h; split at h <;> cases h
  | destroyW => simp only [exec, execDestroyW, whenLive] at h; split at h <;> cases h
  | destroyN => simp only [exec, execDestroyN, whenLive] at h; split at h <;> cases h
  | setpPTrigger v => simp only [exec, execSetpPTrigger, setp, whenLive] at h; split at h <;> cases h
  | setpPGain v => simp only [exec, execSetpPGain, setp, whenLive] at h; split at h <;> cases h
  | setpPFreq v => simp only [exec, execSetpPFreq, setp, whenLive] at h; split at h <;> cases h
  | setpPDuty v => simp only [exec, execSetpPDuty, setp, whenLive] at h; split at h <;> cases h
  | setpWTrigger v => simp only [exec, execSetpWTrigger, setp, whenLive] at h; split at h <;> cases h
  | setpWGain v => simp only [exec, execSetpWGain, setp, whenLive] at h; split at h <;> cases h
  | setpWFreq v => simp only [exec, execSetpWFreq, setp, whenLive] at h; split at h <;> cases h
  | setpNTrigger v => simp only [exec, execSetpNTrigger, setp, whenLive] at h; split at h <;> cases h
  | setpNGain v => simp only [exec, execSetpNGain, setp, whenLive] at h; split at h <;> cases h
  | setpNFreq v => simp only [exec, execSetpNFreq, setp, whenLive] at h; split at h <;> cases h
  | setpNWidth v => simp only [exec, execSetpNWidth, setp, whenLive] at h; split at h <;> cases h
  | wload w => simp only [exec, execWload, whenLive] at h; split at h <;> cases h
  | wpost c =>
    simp only [exec, execWpost, whenLive] at h
    split at h
    · split at h <;> cases h
    · cases h

end Sys2Proof.Machine
end

