-- ==== Sys2Proof/Laws/Frames.lean ====
section
/-! SUPPORT. What a RENDER leaves alone, what its frames do when iterated, its effect from any state with the same
generator, and what the ranges of a generator's parameters depend on. -/

namespace Sys2Proof.Machine

/-- Whether the ranges hold depends only on the values of that generator's registers. -/
theorem rangesHold_congr {g : Channel} {a b : ParReg → Sample} (h : ∀ r, r.channel = g → a r = b r) :
    rangesHold a g ↔ rangesHold b g :=
  forall₂_congr fun r hr => by rw [h r hr]

/-- The ranges of the latched parameters depend on the latch alone. -/
theorem latchInRange_pulse {s t : State} (h : t.pg.S = s.pg.S) : t.latchInRange .pulse ↔ s.latchInRange .pulse :=
  rangesHold_congr fun r hr => by cases r <;> first | (simp only [parLatched, h]; done) | cases hr

theorem latchInRange_wave {s t : State} (h : t.wg.S = s.wg.S) : t.latchInRange .wave ↔ s.latchInRange .wave :=
  rangesHold_congr fun r hr => by cases r <;> first | (simp only [parLatched, h]; done) | cases hr

theorem latchInRange_noise {s t : State} (h : t.ng.S = s.ng.S) : t.latchInRange .noise ↔ s.latchInRange .noise :=
  rangesHold_congr fun r hr => by cases r <;> first | (simp only [parLatched, h]; done) | cases hr

/-- The quotient and remainder by a span of `p + 1` frames, one frame later. -/
theorem span_succ (x p : Nat) : (x % (p+1) = p → (x+1)%(p+1)=0 ∧ (x+1)/(p+1)=x/(p+1)+1) ∧ (x % (p+1) ≠ p →
      (x+1)%(p+1)=x%(p+1)+1 ∧ (x+1)/(p+1)=x/(p+1)) := by
  have h := Nat.div_add_mod x (p+1)
  have hlt := Nat.mod_lt x (show p+1 > 0 by omega)
  constructor
  · intro hh
    have := (Nat.div_mod_unique (show 0 < p+1 by omega) (a := x+1) (d := x/(p+1)+1) (c :=
          0)).2 ⟨by rw [Nat.mul_add]; omega, by omega⟩
    exact ⟨this.2, this.1⟩
  · intro hh
    have := (Nat.div_mod_unique (show 0 < p+1 by omega) (a := x+1) (d := x/(p+1)) (c := x%(p+1)+1)).2 ⟨by omega,
          by omega⟩
    exact ⟨this.2, this.1⟩

/-- PULSE.FRAME changes nothing but the phase counter. -/
theorem pulse_iterate_c (p : Nat) (h : Int) (n : Nat) (g : PulseGen) :
  ∃ c, (fun x => (pulseFrame p h x).2)^[n] g = { g with c := c } := by
  induction n generalizing g with
  | zero => exact ⟨g.c, rfl⟩
  | succ n ih =>
    rw [Function.iterate_succ_apply]
    obtain ⟨c, hc⟩ := ih (pulseFrame p h g).2
    exact ⟨c, by rw [hc]; rfl⟩

/-- WAVE.FRAME changes nothing but the counter and the step index. -/
theorem wave_iterate_counters (p : Nat) (n : Nat) (g : WaveGen) :
  ∃ c k, (fun x => (waveFrame p x).2)^[n] g = { g with sampleCounter := c, stepIndex := k } := by
  induction n generalizing g with
  | zero => exact ⟨g.sampleCounter, g.stepIndex, rfl⟩
  | succ n ih =>
    rw [Function.iterate_succ_apply]
    obtain ⟨c, k, hc⟩ := ih (waveFrame p g).2
    refine ⟨c, k, ?_⟩
    rw [hc]; unfold waveFrame; dsimp only; split <;> rfl

/-- NOISE.FRAME changes nothing but the counter and the shift register. -/
theorem noise_iterate_counters (p : Nat) (b : Bool) (n : Nat) (g : NoiseGen) :
  ∃ c k, (fun x => (noiseFrame p b x).2)^[n] g = { g with c := c, lfsr := k } := by
  induction n generalizing g with
  | zero => exact ⟨g.c, g.lfsr, rfl⟩
  | succ n ih =>
    rw [Function.iterate_succ_apply]
    obtain ⟨c, k, hc⟩ := ih (noiseFrame p b g).2
    refine ⟨c, k, ?_⟩
    rw [hc]; unfold noiseFrame; dsimp only; split <;> rfl

/-- The pulse generator after `n + 1` frames. -/
theorem pulse_iterate (p : Nat) (h : Int) (g : PulseGen) (n : Nat) :
   ((fun x => (pulseFrame p h x).2)^[n+1] g) = { g with c := ((if g.c > p then 0 else g.c) + n) % (p+1) + 1 } := by
  induction n with
  | zero =>
    rw [Function.iterate_succ_apply, Function.iterate_zero, id]
    simp only [pulseFrame, pulseWrap, Nat.add_zero]
    congr 1
    split_ifs with hh
    · simp
    · rw [Nat.mod_eq_of_lt (by omega)]
  | succ n ih =>
    rw [Function.iterate_succ_apply', ih]
    simp only [pulseFrame, pulseWrap]
    congr 2
    generalize (if g.c > p then 0 else g.c) = e
    rw [← Nat.add_assoc]
    have hlt := Nat.mod_lt (e+n) (show p + 1 > 0 by omega)
    by_cases hh : (e + n) % (p+1) = p
    · rw [((span_succ _ _).1 hh).1, hh]; simp
    · rw [((span_succ _ _).2 hh).1, if_neg (by omega)]

/-- The factor of pulse frame `n`. -/
theorem pulse_factor (p : Nat) (h : Int) (g : PulseGen) (n : Nat) :
   (pulseFrame p h ((fun x => (pulseFrame p h x).2)^[n] g)).1 = if (((((if g.c > p then 0 else g.c) + n) % (p+1))
         : Nat) : Int) < h then -1 else 1 := by
  have key : pulseWrap p (((fun x => (pulseFrame p h x).2)^[n] g)).c = ((if g.c > p then 0 else g.c) + n) % (p+1) := by
    have := congrArg PulseGen.c (pulse_iterate p h g n)
    rw [Function.iterate_succ_apply'] at this
    simpa [pulseFrame] using this
  generalize ((fun x => (pulseFrame p h x).2)^[n] g) = y at *
  rw [← key]
  simp [pulseFrame, signFactor]

/-- The wavetable generator after `n + 1` frames. -/
theorem wave_iterate (p : Nat) (g : WaveGen) (n : Nat) :
    ((fun x => (waveFrame p x).2)^[n + 1] g) =
      { g with
        sampleCounter := ((if g.sampleCounter > p then 0 else g.sampleCounter) + n) % (p + 1) + 1
        stepIndex := (if g.sampleCounter > p then g.stepIndex + 1 else g.stepIndex) +
          Fin.ofNat 32 (((if g.sampleCounter > p then 0 else g.sampleCounter) + n) / (p + 1)) } := by
  induction n with
  | zero =>
    rw [Function.iterate_succ_apply, Function.iterate_zero, id]
    simp only [Nat.add_zero, waveFrame]
    split_ifs with hh
    · simp
    · have e1 : g.sampleCounter % (p+1) = g.sampleCounter := Nat.mod_eq_of_lt (by omega)
      have e2 : g.sampleCounter / (p+1) = 0 := Nat.div_eq_of_lt (by omega)
      rw [e1, e2]; simp
  | succ n ih =>
    rw [Function.iterate_succ_apply', ih]
    generalize (if g.sampleCounter > p then 0 else g.sampleCounter) = e
    generalize (if g.sampleCounter > p then g.stepIndex + 1 else g.stepIndex) = b
    rw [← Nat.add_assoc]
    have hlt := Nat.mod_lt (e+n) (show p + 1 > 0 by omega)
    by_cases hh : (e + n) % (p+1) = p
    · rw [((span_succ _ _).1 hh).1, ((span_succ _ _).1 hh).2, hh]
      simp only [waveFrame]
      rw [if_pos (by simp)]
      simp only [WaveGen.mk.injEq, true_and, and_true]
      rw [add_assoc]; congr 1
      ext; simp [Fin.val_add]
    · rw [((span_succ _ _).2 hh).1, ((span_succ _ _).2 hh).2]
      simp only [waveFrame]
      rw [if_neg (by simp; omega)]

/-- The factor of wavetable frame `n`. -/
theorem wave_factor (p : Nat) (g : WaveGen) (n : Nat) :
   (waveFrame p ((fun x => (waveFrame p x).2)^[n] g)).1 = amplitude (g.table.get
         ((if g.sampleCounter > p then g.stepIndex + 1 else g.stepIndex) + Fin.ofNat 32
         (((if g.sampleCounter > p then 0 else g.sampleCounter) + n) / (p+1)))) := by
  have h1 := wave_iterate p g n
  rw [Function.iterate_succ_apply'] at h1
  have key : ∀ x : WaveGen, (waveFrame p x).1 = amplitude ((waveFrame p x).2.table.get
        (waveFrame p x).2.stepIndex) := by
    intro x; simp only [waveFrame]
  rw [key]
  simp only [h1]

/-- The noise generator after `n + 1` frames. -/
theorem noise_iterate (p : Nat) (k : Bool) (g : NoiseGen) (n : Nat) :
    ((fun x => (noiseFrame p k x).2)^[n + 1] g) =
      { g with
        c := ((if g.c > p then 0 else g.c) + n) % (p + 1) + 1
        lfsr := (lfsrTick k)^[((if g.c > p then 0 else g.c) + n) / (p + 1)]
          (if g.c > p then lfsrTick k g.lfsr else g.lfsr) } := by
  induction n with
  | zero =>
    rw [Function.iterate_succ_apply, Function.iterate_zero, id]
    simp only [Nat.add_zero, noiseFrame]
    split_ifs with hh
    · simp
    · have e1 : g.c % (p+1) = g.c := Nat.mod_eq_of_lt (by omega)
      have e2 : g.c / (p+1) = 0 := Nat.div_eq_of_lt (by omega)
      rw [e1, e2]; simp
  | succ n ih =>
    rw [Function.iterate_succ_apply', ih]
    generalize (if g.c > p then 0 else g.c) = e
    generalize (if g.c > p then lfsrTick k g.lfsr else g.lfsr) = b
    rw [← Nat.add_assoc]
    have hlt := Nat.mod_lt (e+n) (show p + 1 > 0 by omega)
    by_cases hh : (e + n) % (p+1) = p
    · rw [((span_succ _ _).1 hh).1, ((span_succ _ _).1 hh).2, hh]
      simp only [noiseFrame]
      rw [if_pos (by simp)]
      simp only [NoiseGen.mk.injEq, true_and]
      rw [Function.iterate_succ_apply']
    · rw [((span_succ _ _).2 hh).1, ((span_succ _ _).2 hh).2]
      simp only [noiseFrame]
      rw [if_neg (by simp; omega)]

/-- The factor of noise frame `n`. -/
theorem noise_factor (p : Nat) (k : Bool) (g : NoiseGen) (n : Nat) :
   (noiseFrame p k ((fun x => (noiseFrame p k x).2)^[n] g)).1 = signFactor
         (((lfsrTick k)^[((if g.c > p then 0 else g.c) + n) / (p+1)]
         (if g.c > p then lfsrTick k g.lfsr else g.lfsr)).getLsbD 0) := by
  have h1 := noise_iterate p k g n
  rw [Function.iterate_succ_apply'] at h1
  have key : ∀ x : NoiseGen, (noiseFrame p k x).1 = signFactor ((noiseFrame p k x).2.lfsr.getLsbD 0) := by
    intro x; simp only [noiseFrame]
  rw [key]
  simp only [h1]

/-- `ticks` is iteration. -/
theorem ticks_eq_iterate (f n x) : ticks f n x = f^[n] x := by
  induction n generalizing x with
  | zero => rfl
  | succ n ih => exact ih _

/-- Entering a generator that was just entered changes nothing. -/
theorem PulseGen.enter_idem {g : PulseGen} (hS : g.S = g.P) (he : g.enabled = enabledOf g.P.trigger) : g.enter = g := by
  obtain ⟨a,b,c,d,e⟩ := g
  simp only at hS he; subst hS; subst he; rfl

/-- Entering a generator that was just entered changes nothing. -/
theorem WaveGen.enter_idem {g : WaveGen} (hS : g.S = g.P) (he : g.enabled = enabledOf g.P.trigger) (hs : g.slot =
      none) : g.enter = g := by
  obtain ⟨a,b,c,d,e,f,k,l⟩ := g
  simp only at hS he hs; subst hS; subst he; subst hs; rfl

/-- Entering a generator that was just entered changes nothing. -/
theorem NoiseGen.enter_idem {g : NoiseGen} (hS : g.S = g.P) (he : g.enabled = enabledOf g.P.trigger) : g.enter = g := by
  obtain ⟨a,b,c,d,e,f⟩ := g
  simp only at hS he; subst hS; subst he; rw [NoiseGen.enter_eq]

/-- A write outside a block commutes with the block. -/
theorem renderLoop_write {γ} (f : γ → Sample × γ) (gain n a) (g : γ) (m : Memory) (hm : Memory.wf m) (b v) (hb
      : b < a ∨ a + n ≤ b) :
   (renderLoop f gain n a g (Memory.write m b v)).2 = Memory.write (renderLoop f gain n a g m).2 b v := by
  induction n generalizing a g m with
  | zero => rfl
  | succ n ih =>
    simp only [renderLoop]
    rw [Memory.write_comm hm _ _ (by omega : b ≠ a)]
    exact ih _ _ _ (Memory.write_wf hm _ _) (by omega)

/-- Blocks into disjoint elements commute (40_block_datapath.md R113). -/
theorem renderLoop_comm {γ δ} (f : γ → Sample × γ) (f' : δ → Sample × δ) (gain gain' n n' a a') (g : γ) (g' : δ)
      (m : Memory) (hm : Memory.wf m)
   (hd : a + n ≤ a' ∨ a' + n' ≤ a) :
   (renderLoop f gain n a g (renderLoop f' gain' n' a' g' m).2).2 = (renderLoop f' gain' n' a' g'
         (renderLoop f gain n a g m).2).2 := by
  induction n generalizing a g m with
  | zero => rfl
  | succ n ih =>
    simp only [renderLoop]
    rw [← renderLoop_write f' gain' n' a' g' m hm a (mix (f g).1 gain) (by omega)]
    exact ih _ _ _ (Memory.write_wf hm _ _) (by omega)

/-- The generator after a block does not depend on the memory. -/
theorem renderLoop_gen_memory {γ} (f : γ → Sample × γ) (gain n a) (g : γ) (m m' : Memory) :
      (renderLoop f gain n a g m).1 = (renderLoop f gain n a g m').1 := by
  rw [renderLoop_gen, renderLoop_gen]

/-- The frame of RENDER.P. -/
theorem execRenderP_frame {F d s t} (h : exec (.renderP F d) s = .next t) :
   s.pg.live = true ∧ F ≤ d.len ∧ ∃ c m, t = (s.setPg { s.pg.enter with c := c}).setDst m ∧
         unchangedOutside d.base F s.dst m ∧ (Memory.wf s.dst → Memory.wf m) := by
  obtain ⟨hl, hd, h | h⟩ := execRenderP_next_iff.1 h
  · exact ⟨hl, hd, s.pg.c, s.dst, h.2, fun _ _ => rfl, id⟩
  · obtain ⟨he, hf, g, m, hgm, rfl⟩ := h
    obtain ⟨c, hc⟩ := pulse_iterate_c (period s.sampleRate s.pg.enter.S.frequency) (highSamples
          (period s.sampleRate s.pg.enter.S.frequency) s.pg.enter.S.dutyCycle) F s.pg.enter
    have hg := congrArg Prod.fst hgm
    have hm := congrArg Prod.snd hgm
    dsimp only at hg hm
    rw [renderLoop_gen] at hg
    refine ⟨hl, hd, c, m, ?_, ?_, ?_⟩
    · rw [hg]; unfold PulseGen.frameOf; rw [hc]
    · intro x hx; rw [hm]; exact renderLoop_read_outside _ _ _ _ _ _ hx
    · intro hw; rw [hm]; exact renderLoop_wf _ _ _ _ _ hw

/-- The frame of RENDER.W. -/
theorem execRenderW_frame {F d s t} (h : exec (.renderW F d) s = .next t) :
   s.wg.live = true ∧ F ≤ d.len ∧ ∃ c k m, t = (s.setWg { s.wg.enter with sampleCounter := c, stepIndex :=
         k}).setDst m ∧ unchangedOutside d.base F s.dst m ∧ (Memory.wf s.dst → Memory.wf m) := by
  obtain ⟨hl, hd, h | h⟩ := execRenderW_next_iff.1 h
  · exact ⟨hl, hd, s.wg.enter.sampleCounter, s.wg.enter.stepIndex, s.dst, h.2, fun _ _ => rfl, id⟩
  · obtain ⟨he, hf, g, m, hgm, rfl⟩ := h
    obtain ⟨c, k, hc⟩ := wave_iterate_counters (stepSamples (period s.sampleRate s.wg.enter.S.frequency)) F s.wg.enter
    have hg := congrArg Prod.fst hgm
    have hm := congrArg Prod.snd hgm
    dsimp only at hg hm
    rw [renderLoop_gen] at hg
    refine ⟨hl, hd, c, k, m, ?_, ?_, ?_⟩
    · rw [hg]; unfold WaveGen.frameOf; rw [hc]
    · intro x hx; rw [hm]; exact renderLoop_read_outside _ _ _ _ _ _ hx
    · intro hw; rw [hm]; exact renderLoop_wf _ _ _ _ _ hw

/-- The frame of RENDER.N. -/
theorem execRenderN_frame {F d s t} (h : exec (.renderN F d) s = .next t) :
   s.ng.live = true ∧ F ≤ d.len ∧ ∃ c k m, t = (s.setNg { s.ng.enter with c := c, lfsr := k}).setDst m ∧
         unchangedOutside d.base F s.dst m ∧ (Memory.wf s.dst → Memory.wf m) := by
  obtain ⟨hl, hd, h | h⟩ := execRenderN_next_iff.1 h
  · exact ⟨hl, hd, s.ng.enter.c, s.ng.enter.lfsr, s.dst, h.2, fun _ _ => rfl, id⟩
  · obtain ⟨he, hf, g, m, hgm, rfl⟩ := h
    obtain ⟨c, k, hc⟩ := noise_iterate_counters (period s.sampleRate s.ng.enter.S.frequency)
          (shortOf s.ng.enter.S.width) F s.ng.enter
    have hg := congrArg Prod.fst hgm
    have hm := congrArg Prod.snd hgm
    dsimp only at hg hm
    rw [renderLoop_gen] at hg
    refine ⟨hl, hd, c, k, m, ?_, ?_, ?_⟩
    · rw [hg]; unfold NoiseGen.frameOf; rw [hc]
    · intro x hx; rw [hm]; exact renderLoop_read_outside _ _ _ _ _ _ hx
    · intro hw; rw [hm]; exact renderLoop_wf _ _ _ _ _ hw

/-- A RENDER.P that completes does the same from every state with that generator and sample rate. -/
theorem execRenderP_effect {F d s t} (h : exec (.renderP F d) s = .next t) : ∃ γ, ∃ f : γ → Sample × γ,
      ∃ gain n g0, ∃ G : PulseGen, (n = F ∨ n = 0) ∧
   (∀ s' : State, s'.pg = s.pg → s'.sampleRate = s.sampleRate →
    exec (.renderP F d) s' = .next ((s'.setPg G).setDst (renderLoop f gain n d.base g0 s'.dst).2)) := by
  obtain ⟨hl, hd, h | h⟩ := execRenderP_next_iff.1 h
  · refine ⟨PulseGen, s.pg.enter.frameOf s.sampleRate, 0, 0, s.pg.enter, s.pg.enter, .inr rfl, fun s' hs hr => ?_⟩
    exact execRenderP_next_iff.2 ⟨by simpa [State.live, hs] using hl, hd, .inl ⟨by rw [hs]; exact h.1, by rw [hs]; rfl⟩⟩
  · obtain ⟨he, hf, g, m, hgm, rfl⟩ := h
    refine ⟨PulseGen, s.pg.enter.frameOf s.sampleRate, s.pg.P.gain, F, s.pg.enter, g, .inl rfl, fun s' hs hr => ?_⟩
    refine execRenderP_next_iff.2 ⟨by simpa [State.live, hs] using hl, hd, .inr ⟨by rw [hs]; exact he,
          by rw [hs]; exact hf, _, _, ?_, rfl⟩⟩
    rw [hs, hr]
    have := congrArg Prod.fst hgm
    dsimp only at this
    rw [this, renderLoop_gen_memory _ _ _ _ _ s.dst s'.dst]

/-- A RENDER.W that completes does the same from every state with that generator and sample rate. -/
theorem execRenderW_effect {F d s t} (h : exec (.renderW F d) s = .next t) : ∃ γ, ∃ f : γ → Sample × γ,
      ∃ gain n g0, ∃ G : WaveGen, (n = F ∨ n = 0) ∧
   (∀ s' : State, s'.wg = s.wg → s'.sampleRate = s.sampleRate →
    exec (.renderW F d) s' = .next ((s'.setWg G).setDst (renderLoop f gain n d.base g0 s'.dst).2)) := by
  obtain ⟨hl, hd, h | h⟩ := execRenderW_next_iff.1 h
  · refine ⟨WaveGen, s.wg.enter.frameOf s.sampleRate, 0, 0, s.wg.enter, s.wg.enter, .inr rfl, fun s' hs hr => ?_⟩
    exact execRenderW_next_iff.2 ⟨by simpa [State.live, hs] using hl, hd, .inl ⟨by rw [hs]; exact h.1, by rw [hs]; rfl⟩⟩
  · obtain ⟨he, hf, g, m, hgm, rfl⟩ := h
    refine ⟨WaveGen, s.wg.enter.frameOf s.sampleRate, s.wg.P.gain, F, s.wg.enter, g, .inl rfl, fun s' hs hr => ?_⟩
    refine execRenderW_next_iff.2 ⟨by simpa [State.live, hs] using hl, hd, .inr ⟨by rw [hs]; exact he,
          by rw [hs]; exact hf, _, _, ?_, rfl⟩⟩
    rw [hs, hr]
    have := congrArg Prod.fst hgm
    dsimp only at this
    rw [this, renderLoop_gen_memory _ _ _ _ _ s.dst s'.dst]

/-- A RENDER.N that completes does the same from every state with that generator and sample rate. -/
theorem execRenderN_effect {F d s t} (h : exec (.renderN F d) s = .next t) : ∃ γ, ∃ f : γ → Sample × γ,
      ∃ gain n g0, ∃ G : NoiseGen, (n = F ∨ n = 0) ∧
   (∀ s' : State, s'.ng = s.ng → s'.sampleRate = s.sampleRate →
    exec (.renderN F d) s' = .next ((s'.setNg G).setDst (renderLoop f gain n d.base g0 s'.dst).2)) := by
  obtain ⟨hl, hd, h | h⟩ := execRenderN_next_iff.1 h
  · refine ⟨NoiseGen, s.ng.enter.frameOf s.sampleRate, 0, 0, s.ng.enter, s.ng.enter, .inr rfl, fun s' hs hr => ?_⟩
    exact execRenderN_next_iff.2 ⟨by simpa [State.live, hs] using hl, hd, .inl ⟨by rw [hs]; exact h.1, by rw [hs]; rfl⟩⟩
  · obtain ⟨he, hf, g, m, hgm, rfl⟩ := h
    refine ⟨NoiseGen, s.ng.enter.frameOf s.sampleRate, s.ng.P.gain, F, s.ng.enter, g, .inl rfl, fun s' hs hr => ?_⟩
    refine execRenderN_next_iff.2 ⟨by simpa [State.live, hs] using hl, hd, .inr ⟨by rw [hs]; exact he,
          by rw [hs]; exact hf, _, _, ?_, rfl⟩⟩
    rw [hs, hr]
    have := congrArg Prod.fst hgm
    dsimp only at this
    rw [this, renderLoop_gen_memory _ _ _ _ _ s.dst s'.dst]

end Sys2Proof.Machine
end

