-- ==== Sys2Proof/Laws/PerInstr.lean ====
section
/-! SUPPORT. Facts about every instruction as syntax, one lemma per constructor. -/

namespace Sys2Proof.Laws

/-- The command of an instruction has a byte of the opcode map (30_encoding.md R86) with its generator's `ch` field (R82),
and operands of the shape its opcode calls for (R85). -/
def EncodedByte.Statement (i : Instr) : Prop :=
  opcodeMap.contains (encode i).byte = true ∧
  chField (encode i).byte = (match i.channel with | .pulse => 0 | .wave => 1 | .noise => 2) ∧
  (match zeroOperands (encode i).byte, (encode i).operands with
    | .empty, .empty | .value _, .value _ | .block _ _, .block _ _ | .words _, .words _ | .codes _, .codes _ => True
    | _, _ => False)

theorem EncodedByte.createP : EncodedByte.Statement .createP := by
  simp [EncodedByte.Statement, encode, Instr.byte, Instr.operands, Instr.channel, opcodeMap, zeroOperands, chField, opcField]
theorem EncodedByte.createW : EncodedByte.Statement .createW := by
  simp [EncodedByte.Statement, encode, Instr.byte, Instr.operands, Instr.channel, opcodeMap, zeroOperands, chField, opcField]
theorem EncodedByte.createN : EncodedByte.Statement .createN := by
  simp [EncodedByte.Statement, encode, Instr.byte, Instr.operands, Instr.channel, opcodeMap, zeroOperands, chField, opcField]
theorem EncodedByte.destroyP : EncodedByte.Statement .destroyP := by
  simp [EncodedByte.Statement, encode, Instr.byte, Instr.operands, Instr.channel, opcodeMap, zeroOperands, chField, opcField]
theorem EncodedByte.destroyW : EncodedByte.Statement .destroyW := by
  simp [EncodedByte.Statement, encode, Instr.byte, Instr.operands, Instr.channel, opcodeMap, zeroOperands, chField, opcField]
theorem EncodedByte.destroyN : EncodedByte.Statement .destroyN := by
  simp [EncodedByte.Statement, encode, Instr.byte, Instr.operands, Instr.channel, opcodeMap, zeroOperands, chField, opcField]
theorem EncodedByte.setpPTrigger (v : Sample) : EncodedByte.Statement (.setpPTrigger v) := by
  simp [EncodedByte.Statement, encode, Instr.byte, Instr.operands, Instr.channel, opcodeMap, zeroOperands, chField, opcField]
theorem EncodedByte.setpPGain (v : Sample) : EncodedByte.Statement (.setpPGain v) := by
  simp [EncodedByte.Statement, encode, Instr.byte, Instr.operands, Instr.channel, opcodeMap, zeroOperands, chField, opcField]
theorem EncodedByte.setpPFreq (v : Sample) : EncodedByte.Statement (.setpPFreq v) := by
  simp [EncodedByte.Statement, encode, Instr.byte, Instr.operands, Instr.channel, opcodeMap, zeroOperands, chField, opcField]
theorem EncodedByte.setpPDuty (v : Sample) : EncodedByte.Statement (.setpPDuty v) := by
  simp [EncodedByte.Statement, encode, Instr.byte, Instr.operands, Instr.channel, opcodeMap, zeroOperands, chField, opcField]
theorem EncodedByte.setpWTrigger (v : Sample) : EncodedByte.Statement (.setpWTrigger v) := by
  simp [EncodedByte.Statement, encode, Instr.byte, Instr.operands, Instr.channel, opcodeMap, zeroOperands, chField, opcField]
theorem EncodedByte.setpWGain (v : Sample) : EncodedByte.Statement (.setpWGain v) := by
  simp [EncodedByte.Statement, encode, Instr.byte, Instr.operands, Instr.channel, opcodeMap, zeroOperands, chField, opcField]
theorem EncodedByte.setpWFreq (v : Sample) : EncodedByte.Statement (.setpWFreq v) := by
  simp [EncodedByte.Statement, encode, Instr.byte, Instr.operands, Instr.channel, opcodeMap, zeroOperands, chField, opcField]
theorem EncodedByte.setpNTrigger (v : Sample) : EncodedByte.Statement (.setpNTrigger v) := by
  simp [EncodedByte.Statement, encode, Instr.byte, Instr.operands, Instr.channel, opcodeMap, zeroOperands, chField, opcField]
theorem EncodedByte.setpNGain (v : Sample) : EncodedByte.Statement (.setpNGain v) := by
  simp [EncodedByte.Statement, encode, Instr.byte, Instr.operands, Instr.channel, opcodeMap, zeroOperands, chField, opcField]
theorem EncodedByte.setpNFreq (v : Sample) : EncodedByte.Statement (.setpNFreq v) := by
  simp [EncodedByte.Statement, encode, Instr.byte, Instr.operands, Instr.channel, opcodeMap, zeroOperands, chField, opcField]
theorem EncodedByte.setpNWidth (v : Sample) : EncodedByte.Statement (.setpNWidth v) := by
  simp [EncodedByte.Statement, encode, Instr.byte, Instr.operands, Instr.channel, opcodeMap, zeroOperands, chField, opcField]
theorem EncodedByte.renderP (frames : Nat) (dst : Slice) : EncodedByte.Statement (.renderP frames dst) := by
  simp [EncodedByte.Statement, encode, Instr.byte, Instr.operands, Instr.channel, opcodeMap, zeroOperands, chField, opcField]
theorem EncodedByte.renderW (frames : Nat) (dst : Slice) : EncodedByte.Statement (.renderW frames dst) := by
  simp [EncodedByte.Statement, encode, Instr.byte, Instr.operands, Instr.channel, opcodeMap, zeroOperands, chField, opcField]
theorem EncodedByte.renderN (frames : Nat) (dst : Slice) : EncodedByte.Statement (.renderN frames dst) := by
  simp [EncodedByte.Statement, encode, Instr.byte, Instr.operands, Instr.channel, opcodeMap, zeroOperands, chField, opcField]
theorem EncodedByte.wload (words : Vector PackedWord 8) : EncodedByte.Statement (.wload words) := by
  simp [EncodedByte.Statement, encode, Instr.byte, Instr.operands, Instr.channel, opcodeMap, zeroOperands, chField, opcField]
theorem EncodedByte.wpost (codes : Vector Nat 32) : EncodedByte.Statement (.wpost codes) := by
  simp [EncodedByte.Statement, encode, Instr.byte, Instr.operands, Instr.channel, opcodeMap, zeroOperands, chField, opcField]

/-- A byte is legal by its fields (30_encoding.md R87) exactly when it stands in the opcode map (R86). -/
theorem legalByte_iff_mem : ∀ b : BitVec 8, legalByte b = opcodeMap.contains b := by decide +kernel

end Sys2Proof.Laws
end

