-- ==== Sys2Proof/Tests/Slice0.lean ====
section
/-! SUPPORT. Tests. Expected results come from the spec: the encodings of 30_encoding.md,
      the vectors of 95_test_vectors.md
("V-D1", "P2", …), or the rule named. The witnesses show that the hypotheses of the statements can be met. -/

namespace Sys2Proof.Tests

open Sys2Proof.Machine

/-! ## Helpers -/

/-- The next state, or the state itself where there is none. -/
def result (i : Instr) (s : State) : State :=
  match exec i s with
  | .next t => t
  | .fault _ => s
  | .refused _ => s

/-- There is a next state. -/
def completes : Result → Bool
  | .next _ => true
  | .fault _ => false
  | .refused _ => false

/-- The name of a fault. -/
def faultName : Result → Option Fault
  | .fault e => some e
  | .next _ => none
  | .refused _ => none

/-- The name of a refusal. -/
def refusalName : Result → Option Refusal
  | .refused e => some e
  | .next _ => none
  | .fault _ => none

theorem exec_result {i : Instr} {s : State} (h : completes (exec i s) = true) : exec i s = .next (result i s) := by
  unfold result
  cases hx : exec i s <;> simp_all [completes]

/-- `n` samples from an address on. -/
def samples (s : State) (a n : Nat) : List Sample := (List.range n).map fun k => Memory.read s.dst (a + k)

/-- Only a pulse generator, with the parameters trigger, gain, frequency, duty cycle and the counter. -/
def pulseState (rate : ℕ+) (t g f q : Sample) (c : Nat) : State :=
  { State.resetAt rate with pg := { live := true, P := ⟨t, g, f, q⟩, S := PulseParams.reset, enabled := false, c :=
        c } }

/-- Only a wavetable generator, with its parameters, counter, step index, active table and mailbox. -/
def waveState (rate : ℕ+) (t g f : Sample) (sc : Nat) (st : Fin 32) (table : Wavetable) (slot : Option Wavetable)
      : State :=
  { State.resetAt rate with
    wg := { live := true, P := ⟨t, g, f⟩, S := WaveParams.reset, enabled := false, sampleCounter := sc,
            stepIndex := st, table := table, slot := slot } }

/-- Only a noise generator, with its parameters, counter and shift register. -/
def noiseState (rate : ℕ+) (t g f w : Sample) (c : Nat) (x : ShiftReg) : State :=
  { State.resetAt rate with
    ng := { live := true, P := ⟨t, g, f, w⟩, S := NoiseParams.reset, enabled := false, c := c, lfsr := x } }

/-- All three generators live with one trigger and one frequency. -/
def liveState (t f : Sample) : State :=
  { State.resetAt 8 with
    pg := (pulseState 8 t (1 / 2) f (1 / 2) 0).pg
    wg := (waveState 8 t (3 / 4) f 0 31 (Vector.replicate 32 0) (some (Vector.replicate 32 15))).wg
    ng := (noiseState 8 t 1 f 1 0 0x7FFF).ng }

/-- The wavetable generator of `liveState 1 2` with another counter. -/
def swapState (sc : Nat) : State :=
  { liveState 1 2 with
    wg := (waveState 8 1 (3 / 4) 2 sc 31 (Vector.replicate 32 0) (some (Vector.replicate 32 15))).wg }

/-- The pulse generator of V-D1 in `liveState 1 2` with another counter. -/
def spanState (c : Nat) : State := { liveState 1 2 with pg := (pulseState 8 1 (1 / 2) 2 (1 / 2) c).pg }

/-- The words and the table of V-D7. -/
def vd7Words : Vector PackedWord 8 :=
  #v[0x00000123, 0x00004567, 0x000089AB, 0x0000CDEF, 0xFFFFFEDC, 0xDEADBA98, 0x00007654, 0x12343210]

def vd7Codes : Vector Nat 32 :=
  #v[2, 3, 0, 1, 6, 7, 4, 5, 10, 11, 8, 9, 14, 15, 12, 13, 13, 12, 15, 14, 9, 8, 11, 10, 5, 4, 7, 6, 1, 0, 3, 2]

/-! ## Well-formedness: each check refuses an ill-formed term -/

theorem test_wf_short_slice_p : (Instr.renderP 4 ⟨0, 3⟩).wellFormed = false := by decide
theorem test_wf_short_slice_w : (Instr.renderW 4 ⟨0, 3⟩).wellFormed = false := by decide
theorem test_wf_short_slice_n : (Instr.renderN 4 ⟨0, 3⟩).wellFormed = false := by decide
theorem test_wf_code_16 : (Instr.wpost ((Vector.replicate 32 15).set 31 16)).wellFormed = false := by decide
theorem test_wf_exact_slice : (Instr.renderP 4 ⟨0, 4⟩).wellFormed = true := by decide
theorem test_wf_code_15 : (Instr.wpost (Vector.replicate 32 15)).wellFormed = true := by decide

/-! ## Decoding: every constructor from its bits, `opc ch p` (30_encoding.md R81 to R86) -/

theorem test_decode_createP : decode ⟨0b0001_00_00, .empty⟩ = .ok .createP := by rfl
theorem test_decode_createW : decode ⟨0b0001_01_00, .empty⟩ = .ok .createW := by rfl
theorem test_decode_createN : decode ⟨0b0001_10_00, .empty⟩ = .ok .createN := by rfl
theorem test_decode_destroyP : decode ⟨0b0010_00_00, .empty⟩ = .ok .destroyP := by rfl
theorem test_decode_destroyW : decode ⟨0b0010_01_00, .empty⟩ = .ok .destroyW := by rfl
theorem test_decode_destroyN : decode ⟨0b0010_10_00, .empty⟩ = .ok .destroyN := by rfl
theorem test_decode_setpPTrigger : decode ⟨0b0011_00_00, .value 1⟩ = .ok (.setpPTrigger 1) := by rfl
theorem test_decode_setpPGain : decode ⟨0b0011_00_01, .value 1⟩ = .ok (.setpPGain 1) := by rfl
theorem test_decode_setpPFreq : decode ⟨0b0011_00_10, .value 1⟩ = .ok (.setpPFreq 1) := by rfl
theorem test_decode_setpPDuty : decode ⟨0b0011_00_11, .value 1⟩ = .ok (.setpPDuty 1) := by rfl
theorem test_decode_setpWTrigger : decode ⟨0b0011_01_00, .value 1⟩ = .ok (.setpWTrigger 1) := by rfl
theorem test_decode_setpWGain : decode ⟨0b0011_01_01, .value 1⟩ = .ok (.setpWGain 1) := by rfl
theorem test_decode_setpWFreq : decode ⟨0b0011_01_10, .value 1⟩ = .ok (.setpWFreq 1) := by rfl
theorem test_decode_setpNTrigger : decode ⟨0b0011_10_00, .value 1⟩ = .ok (.setpNTrigger 1) := by rfl
theorem test_decode_setpNGain : decode ⟨0b0011_10_01, .value 1⟩ = .ok (.setpNGain 1) := by rfl
theorem test_decode_setpNFreq : decode ⟨0b0011_10_10, .value 1⟩ = .ok (.setpNFreq 1) := by rfl
theorem test_decode_setpNWidth : decode ⟨0b0011_10_11, .value 1⟩ = .ok (.setpNWidth 1) := by rfl
theorem test_decode_renderP : decode ⟨0b0100_00_00, .block 3 ⟨7, 4⟩⟩ = .ok (.renderP 3 ⟨7, 4⟩) := by rfl
theorem test_decode_renderW : decode ⟨0b0100_01_00, .block 3 ⟨7, 4⟩⟩ = .ok (.renderW 3 ⟨7, 4⟩) := by rfl
theorem test_decode_renderN : decode ⟨0b0100_10_00, .block 3 ⟨7, 4⟩⟩ = .ok (.renderN 3 ⟨7, 4⟩) := by rfl
theorem test_decode_wload : decode ⟨0b0101_01_00, .words vd7Words⟩ = .ok (.wload vd7Words) := by rfl
theorem test_decode_wpost : decode ⟨0b0110_01_00, .codes vd7Codes⟩ = .ok (.wpost vd7Codes) := by rfl

/-- The illegal byte `0x37` of 30_encoding.md R87: there is no fourth wavetable parameter. -/
theorem test_decode_illegal : decode ⟨0x37, .value 0⟩ = .error (.illegalCommand 0x37) := by rfl

/-- A SETP byte with no value (log 8). -/
theorem test_decode_mismatch : decode ⟨0x30, .empty⟩ = .error (.operandsMismatch 0x30) := by rfl

/-- Every row of the opcode table decodes as its word (30_encoding.md R86). -/
theorem test_table_words : (opcodeMap.map fun b => (decodeTableWord 8 b.toNat).map Instr.mnemonic) =
    ["CREATE.P", "CREATE.W", "CREATE.N", "DESTROY.P", "DESTROY.W", "DESTROY.N", "SETP.P.TRIGGER", "SETP.P.GAIN",
     "SETP.P.FREQ", "SETP.P.DUTY", "SETP.W.TRIGGER", "SETP.W.GAIN", "SETP.W.FREQ", "SETP.N.TRIGGER", "SETP.N.GAIN",
     "SETP.N.FREQ", "SETP.N.WIDTH", "RENDER.P", "RENDER.W", "RENDER.N", "WLOAD", "WPOST"].map some := by decide +kernel

/-! ## One step of each operation -/

/-- 10_state.md R42. -/
theorem test_createP : (result .createP (State.resetAt 8)).pg = ⟨true, ⟨0, 0, 1, 0⟩, ⟨0, 0, 1, 0⟩, false, 0⟩ := by rfl

/-- 10_state.md R42: "the table that plays constantly at `+gain`", and an empty mailbox. -/
theorem test_createW : (result .createW (State.resetAt 8)).wg =
    ⟨true, ⟨0, 0, 1⟩, ⟨0, 0, 1⟩, false, 0, 0, Vector.replicate 32 0, none⟩ := by rfl

/-- 10_state.md R42. -/
theorem test_createN : (result .createN (State.resetAt 8)).ng =
    ⟨true, ⟨0, 0, 1, 0⟩, ⟨0, 0, 1, 0⟩, false, 0, 0x0000⟩ := by rfl

/-- Violation V7 (44_control_system.md R200 to R202). -/
theorem test_create_twice : refusalName (exec .createP (liveState 1 2)) = some (.alreadyLive .pulse) ∧
    refusalName (exec .createW (liveState 1 2)) = some (.alreadyLive .wave) ∧
    refusalName (exec .createN (liveState 1 2)) = some (.alreadyLive .noise) := ⟨rfl, rfl, rfl⟩

/-- 44_control_system.md R203 to R205. -/
theorem test_destroy : (result .destroyP (liveState 1 2)).live .pulse = false ∧
    (result .destroyW (liveState 1 2)).wg.slot = none ∧ (result .destroyN (liveState 1 2)).live .noise = false ∧
    (result .destroyN (liveState 1 2)).live .pulse = true := ⟨rfl, rfl, rfl, rfl⟩

/-- Violation V7 (44_control_system.md R203 to R219). -/
theorem test_not_live : refusalName (exec .destroyP (State.resetAt 8)) = some (.notLive .pulse) ∧
    refusalName (exec (.setpWGain 1) (State.resetAt 8)) = some (.notLive .wave) ∧
    refusalName (exec (.renderN 1 ⟨0, 1⟩) (State.resetAt 8)) = some (.notLive .noise) ∧
    refusalName (exec (.wpost vd7Codes) (State.resetAt 8)) = some (.notLive .wave) := ⟨rfl, rfl, rfl, rfl⟩

/-- 44_control_system.md R206 to R209. -/
theorem test_setp_pulse : (result (.setpPTrigger 0) (pulseState 8 1 1 1 1 5)).pg.P = ⟨0, 1, 1, 1⟩ ∧
    (result (.setpPGain 0) (pulseState 8 1 1 1 1 5)).pg.P = ⟨1, 0, 1, 1⟩ ∧
    (result (.setpPFreq 2) (pulseState 8 1 1 1 1 5)).pg.P = ⟨1, 1, 2, 1⟩ ∧
    (result (.setpPDuty 0) (pulseState 8 1 1 1 1 5)).pg.P = ⟨1, 1, 1, 0⟩ := ⟨rfl, rfl, rfl, rfl⟩

/-- 44_control_system.md R210 to R212. -/
theorem test_setp_wave : (result (.setpWTrigger 0) (liveState 1 2)).wg.P = ⟨0, 3 / 4, 2⟩ ∧
    (result (.setpWGain 0) (liveState 1 2)).wg.P = ⟨1, 0, 2⟩ ∧
    (result (.setpWFreq 5) (liveState 1 2)).wg.P = ⟨1, 3 / 4, 5⟩ := ⟨rfl, rfl, rfl⟩

/-- 44_control_system.md R213 to R216. -/
theorem test_setp_noise : (result (.setpNTrigger 0) (noiseState 8 1 1 1 1 5 0)).ng.P = ⟨0, 1, 1, 1⟩ ∧
    (result (.setpNGain 0) (noiseState 8 1 1 1 1 5 0)).ng.P = ⟨1, 0, 1, 1⟩ ∧
    (result (.setpNFreq 2) (noiseState 8 1 1 1 1 5 0)).ng.P = ⟨1, 1, 2, 1⟩ ∧
    (result (.setpNWidth 0) (noiseState 8 1 1 1 1 5 0)).ng.P = ⟨1, 1, 1, 0⟩ := ⟨rfl, rfl, rfl, rfl⟩

/-- V-D1. -/
theorem test_renderP_span : samples (result (.renderP 8 ⟨0, 8⟩) (pulseState 8 1 (1 / 2) 2 (1 / 2) 0)) 0 8 =
      [-1 / 2, -1 / 2, 1 / 2, 1 / 2, 1 / 2, -1 / 2, -1 / 2, 1 / 2] ∧
    (result (.renderP 8 ⟨0, 8⟩) (pulseState 8 1 (1 / 2) 2 (1 / 2) 0)).pg.c = 3 := by decide +kernel

/-- V-D6, second block: the stale counter 7 wraps at frame 0. -/
theorem test_renderP_stale : samples (result (.renderP 6 ⟨3, 9⟩) (pulseState 8 1 1 4 (1 / 2) 7)) 3 6 =
      [-1, 1, 1, -1, 1, 1] ∧ (result (.renderP 6 ⟨3, 9⟩) (pulseState 8 1 1 4 (1 / 2) 7)).pg.c = 3 := by decide +kernel

/-- V-D8 with the table `T` of V-D7 posted: the step index wraps from 31 to 0. -/
theorem test_renderW_wrap :
    let s := waveState 31 1 1 1 0 0 (Vector.replicate 32 0) (some (tableOfCodes vd7Codes))
    samples (result (.renderW 34 ⟨0, 34⟩) s) 30 4 = [3 / 5, 11 / 15, 11 / 15, 3 / 5] ∧
      (result (.renderW 34 ⟨0, 34⟩) s).wg.sampleCounter = 1 ∧ (result (.renderW 34 ⟨0, 34⟩) s).wg.stepIndex = 1 := by
  decide +kernel

/-- V-D9 (a): a disabled RENDER.W writes nothing and still takes the waiting table. -/
theorem test_renderW_disabled :
    let s := (waveState 64 0 1 1 0 0 (Vector.replicate 32 0) (some (Vector.replicate 32 15))).setDst [(0, 9), (1, 9)]
    (result (.renderW 2 ⟨0, 2⟩) s).dst = [(0, 9), (1, 9)] ∧ (result (.renderW 2 ⟨0, 2⟩) s).wg.slot = none ∧
      (result (.renderW 2 ⟨0, 2⟩) s).wg.table = Vector.replicate 32 15 := by decide +kernel

/-- V-D15: at `width = 1/2` the mode is long. -/
theorem test_renderN_long : (result (.renderN 3 ⟨0, 3⟩) (noiseState 8 1 1 16 (1 / 2) 0 0)).ng.lfsr = 0x6000 ∧
    (result (.renderN 3 ⟨0, 3⟩) (noiseState 8 1 1 16 (1 / 2) 0 0)).ng.c = 1 := by decide +kernel

/-- V-D17, block 1: short mode, and the polarity of bit 0. -/
theorem test_renderN_short :
    let t := result (.renderN 16 ⟨0, 16⟩) (noiseState 8 1 (1 / 4) 8 1 0 0)
    samples t 13 3 = [1 / 4, -1 / 4, -1 / 4] ∧ t.ng.c = 2 ∧ t.ng.lfsr = 0x3F3F := by decide +kernel

/-- V-D7 and V-D24: WLOAD posts the table `T`. -/
theorem test_wload : (result (.wload vd7Words) (liveState 1 2)).wg.slot = some (tableOfCodes vd7Codes) := by
  decide +kernel

/-- V-S4: the unpacked nibbles of `0x12345678`. -/
theorem test_unpack_order : (unpack (#v[0x12345678, 0, 0, 0, 0, 0, 0, 0])).toList.take 5 = [7, 8, 5, 6, 0] :=
      by decide +kernel

/-- 44_control_system.md R219, R220: the posted table replaces the waiting one; violation V6 is refused. -/
theorem test_wpost : (result (.wpost (Vector.replicate 32 7)) (liveState 1 2)).wg.slot = some (Vector.replicate 32 7) ∧
    refusalName (exec (.wpost (Vector.replicate 32 16)) (liveState 1 2)) = some .codeAboveFifteen := by decide +kernel

/-- V1 and V8 (60_exceptions.md R227, R230). -/
theorem test_render_violations :
    faultName (exec (.renderP 1 ⟨0, 1⟩) (liveState 1 0)) = some (.frequencyNotPositive .pulse) ∧
    faultName (exec (.renderN 0 ⟨0, 1⟩) (liveState 1 (-1))) = some (.frequencyNotPositive .noise) ∧
    refusalName (exec (.renderW 2 ⟨0, 1⟩) (liveState 1 2)) = some (.sliceTooShort .wave) := by decide +kernel

/-- Rows of V-D13. -/
theorem test_ticks : tickLong 0x1234 = 0x491A ∧ tickShort 0x1234 = 0x495A ∧ tickLong 0x2AAA = 0x1555 ∧
    tickShort 0x2AAA = 0x1515 ∧ tickLong 0x0001 = 0x0000 ∧ tickShort 0x0040 = 0x4060 := by decide

/-- The step takes the command, and an operation placed by `withFetchWord` is the very next to run. -/
theorem test_step_fetch : ∃ t, step ((liveState 1 2).withFetchWord 8 0x31) = .next t ∧ t.pg.P.gain = 0 ∧
      t.pending = [] :=
  ⟨_, rfl, rfl, rfl⟩

/-- Out of reset the CREATE rows run and the others are refused for want of a live generator (V7, log 1). -/
theorem test_step_after_reset : completes (step (State.reset.withFetchWord 8 0x10)) = true ∧
    refusalName (step (State.reset.withFetchWord 8 0x40)) = some (.notLive .pulse) := ⟨rfl, rfl⟩

/-! ## Witnesses: one concrete state and operands that meet all hypotheses of each statement that has some, each clause at a
boundary of its range -/


/-- With legal parameters the contract's ranges hold. -/
theorem inRange_of_legal {s : State} (h : s.parametersLegal) (g : Channel) : s.inRange g := fun r _ => .inl (h r)

theorem live_legal : (liveState 1 2).parametersLegal ∧ (liveState 0 2).parametersLegal ∧
    (liveState 1 1).parametersLegal ∧ (liveState 1 20000).parametersLegal := by
  refine ⟨fun r => ?_, fun r => ?_, fun r => ?_, fun r => ?_⟩ <;> cases r <;> decide +kernel

theorem next_of_completes {r : Result} (h : completes r = true) : ∃ t, r = .next t := by
  cases r <;> simp_all [completes]

/-- The state of `liveState` with one command pending. -/
def queued (c : Command) : State := (liveState 1 2).setPending [c]

/-- One SETP of every form. -/
def everySetp : List Instr :=
  [.setpPTrigger 1, .setpPGain 1, .setpPFreq 1, .setpPDuty 1, .setpWTrigger 1, .setpWGain 1, .setpWFreq 1,
   .setpNTrigger 1, .setpNGain 1, .setpNFreq 1, .setpNWidth 1]

/-- One operation of every constructor. -/
def everyOperation : List Instr :=
  List.append [.createP, .createW, .createN, .destroyP, .destroyW, .destroyN] <| List.append everySetp
    [.renderP 3 ⟨0, 3⟩, .renderW 3 ⟨0, 3⟩, .renderN 3 ⟨0, 3⟩, .wload vd7Words, .wpost vd7Codes]

/-- A state in which an operation's generator has the liveness it needs. -/
def stateFor (i : Instr) : State := if i = createOf i.channel then State.resetAt 8 else liveState 1 2

theorem witness_IllegalBytesRefused : (queued ⟨0x37, .empty⟩).pending = ⟨0x37, .empty⟩ :: [] ∧
    (0x37 : BitVec 8) ∉ opcodeMap ∧ (0x0F : BitVec 8) ∉ opcodeMap ∧ (0x70 : BitVec 8) ∉ opcodeMap := by
  refine ⟨rfl, ?_⟩; decide

theorem witness_StepRunsDecoded : (queued ⟨0x31, .value 1⟩).pending = ⟨0x31, .value 1⟩ :: [] ∧
    decode ⟨0x31, .value 1⟩ = .ok (.setpPGain 1) := ⟨rfl, rfl⟩

theorem witness_NothingIssuedNothingChanges : State.reset.pending = [] := rfl

theorem witness_CreateGivesResetState : State.reset.pg.live = false ∧ State.reset.wg.live = false ∧
    State.reset.ng.live = false := ⟨rfl, rfl, rfl⟩

theorem witness_DestroyEndsTheSession : ∀ g : Channel, (liveState 1 2).live g = true := by intro g; cases g <;> rfl

theorem witness_RecreatedIsNew : ∀ g : Channel, (liveState 1 2).live g = true ∧ (State.resetAt 8).live g = false := by
  intro g; cases g <;> exact ⟨rfl, rfl⟩

theorem witness_WrongLivenessRefused :
    (∀ g : Channel, createOf g = createOf (createOf g).channel ∧ (liveState 1 2).live (createOf g).channel = true) ∧
    (∀ g : Channel, destroyOf g ≠ createOf (destroyOf g).channel ∧ State.reset.live (destroyOf g).channel = false) := by
  constructor <;> intro g <;> cases g <;> exact ⟨by simp [createOf, destroyOf, Instr.channel], rfl⟩

theorem witness_SetpWritesOneRegister : everySetp.all (fun i =>
    match setpTarget i with
    | some (r, _) => (liveState 1 2).live r.channel
    | none => false) = true := by decide +kernel

theorem witness_TriggerAndGainSetpRules : (liveState 1 2).wg.live = true ∧ (liveState 1 2).ng.live = true := ⟨rfl, rfl⟩

/-- The last clause is met at both legal values. -/
theorem witness_PulseTriggerSetpRule : (liveState 1 2).pg.live = true ∧
    ∀ v, v = 0 ∨ v = 1 → ({ liveState 1 2 with pg.P.trigger := v } : State).inRange .pulse ∧
      ∃ u, exec (.renderP 1 ⟨0, 1⟩) { liveState 1 2 with pg.P.trigger := v } = .next u := by
  refine ⟨rfl, fun v hv => ⟨fun r hr => ?_, ?_⟩⟩
  · cases r with
    | pTrigger => exact .inl (decide_eq_true hv)
    | pGain => exact .inl (live_legal.1 .pGain)
    | pFrequency => exact .inl (live_legal.1 .pFrequency)
    | pDutyCycle => exact .inl (live_legal.1 .pDutyCycle)
    | wTrigger | wGain | wFrequency | nTrigger | nGain | nFrequency | nWidth => cases hr
  · rcases hv with rfl | rfl <;> exact next_of_completes (by decide +kernel)

/-- Every operation completes from a state that meets the hypotheses of `OperationsComplete`. -/
theorem witness_OperationsComplete : everyOperation.all (fun i =>
      i.wellFormed && (i != createOf i.channel || !(stateFor i).live i.channel) &&
        (i == createOf i.channel || (stateFor i).live i.channel) && completes (exec i (stateFor i))) = true ∧
    (∀ g : Channel, (liveState 1 2).inRange g ∧ 0 < frequencyOf (liveState 1 2) g) := by
  refine ⟨by decide +kernel, fun g => ⟨inRange_of_legal live_legal.1 g, ?_⟩⟩
  cases g <;> decide +kernel

/-- For the statements about any operation that completes: `EnableFlagRule`, `TableReplacedWholesale`,
`GeneratorsIndependent`, `PersistBetweenRenders`, `ControlThreadTouchesOnlyMailbox`, `OnlyRenderWritesSamples`. -/
theorem witness_anyOperation : ∀ i ∈ everyOperation,
    renderInRange i (stateFor i) ∧ exec i (stateFor i) = .next (result i (stateFor i)) := by
  intro i hi
  have h := List.all_eq_true.1 witness_OperationsComplete.1 i hi
  simp only [Bool.and_eq_true] at h
  refine ⟨?_, exec_result h.2⟩
  rintro g F d rfl
  have hs : stateFor (renderOf g F d) = liveState 1 2 := by
    unfold stateFor
    rw [if_neg]
    cases g <;> simp [renderOf, createOf, Instr.channel]
  rw [hs]
  exact inRange_of_legal live_legal.1 g

/-- A state like another in one generator and different elsewhere, for the second part of `GeneratorsIndependent`. -/
theorem witness_GeneratorsIndependent : (pulseState 8 1 (1 / 2) 2 (1 / 2) 0).sampleRate = (liveState 1 2).sampleRate ∧
    (pulseState 8 1 (1 / 2) 2 (1 / 2) 0).dst = (liveState 1 2).dst ∧
    sameGen .pulse (liveState 1 2) (pulseState 8 1 (1 / 2) 2 (1 / 2) 0) ∧
    pulseState 8 1 (1 / 2) 2 (1 / 2) 0 ≠ liveState 1 2 := by
  refine ⟨rfl, rfl, rfl, ?_⟩; decide +kernel

/-- For `RenderLatchesParameters` and `RenderFrame`: enabled and disabled blocks complete. -/
theorem witness_RenderFrame : ∀ g : Channel, (liveState 1 2).inRange g ∧ (liveState 0 2).inRange g ∧
    exec (renderOf g 3 ⟨0, 3⟩) (liveState 1 2) = .next (result (renderOf g 3 ⟨0, 3⟩) (liveState 1 2)) ∧
    exec (renderOf g 3 ⟨0, 3⟩) (liveState 0 2) = .next (result (renderOf g 3 ⟨0, 3⟩) (liveState 0 2)) := by
  intro g
  refine ⟨inRange_of_legal live_legal.1 g, inRange_of_legal live_legal.2.1 g, exec_result ?_, exec_result ?_⟩ <;>
    cases g <;> decide +kernel

theorem witness_NonPositiveFrequencyFaults : ∀ g : Channel, 3 ≤ (⟨0, 3⟩ : Slice).len ∧
    (liveState 1 0).live g = true ∧ (liveState 1 0).inRange g ∧ frequencyOf (liveState 1 0) g ≤ 0 ∧
    triggerOf (liveState 1 0) g > 1 / 2 ∧
    (liveState 0 0).live g = true ∧ (liveState 0 0).inRange g ∧ frequencyOf (liveState 0 0) g ≤ 0 ∧
    triggerOf (liveState 0 0) g ≤ 1 / 2 := by
  intro g
  have h1 : (liveState 1 0).inRange g := by
    intro r _
    cases r <;> first | (left; decide +kernel) | (right; decide +kernel)
  have h0 : (liveState 0 0).inRange g := by
    intro r _
    cases r <;> first | (left; decide +kernel) | (right; decide +kernel)
  refine ⟨le_refl 3, by cases g <;> rfl, h1, ?_, ?_, by cases g <;> rfl, h0, ?_, ?_⟩ <;> cases g <;> decide +kernel

theorem witness_ShortSliceRefused : ∀ g : Channel, (liveState 1 2).live g = true ∧ (⟨0, 3⟩ : Slice).len < 4 := by
  intro g; cases g <;> exact ⟨rfl, by decide⟩

/-- Enabled and disabled. -/
theorem witness_ZeroFramesMoveNothing : ∀ g : Channel, (liveState 1 2).live g = true ∧ (liveState 1 2).inRange g ∧
    triggerOf (liveState 1 2) g > 1 / 2 ∧ 0 < frequencyOf (liveState 1 2) g ∧
    (liveState 0 2).live g = true ∧ (liveState 0 2).inRange g ∧ ¬triggerOf (liveState 0 2) g > 1 / 2 := by
  intro g
  refine ⟨by cases g <;> rfl, inRange_of_legal live_legal.1 g, ?_, ?_, by cases g <;> rfl,
    inRange_of_legal live_legal.2.1 g, ?_⟩ <;> cases g <;> decide +kernel

/-- V-D5: five frames and then three in place of eight. -/
theorem witness_BlocksJoin : ∀ g : Channel, (liveState 1 2).inRange g ∧
    exec (renderOf g 5 ⟨2, 5⟩) (liveState 1 2) = .next (result (renderOf g 5 ⟨2, 5⟩) (liveState 1 2)) ∧
    (⟨2, 8⟩ : Slice).base = (⟨2, 5⟩ : Slice).base ∧ (⟨7, 3⟩ : Slice).base = (⟨2, 5⟩ : Slice).base + 5 ∧
    3 ≤ (⟨7, 3⟩ : Slice).len ∧ 5 + 3 ≤ (⟨2, 8⟩ : Slice).len := by
  intro g
  refine ⟨inRange_of_legal live_legal.1 g, exec_result ?_, rfl, rfl, by decide, by decide⟩
  cases g <;> decide +kernel

/-- Slices that touch without overlapping. -/
theorem witness_RendersCommute : Channel.pulse ≠ .noise ∧ Memory.wf (liveState 1 2).dst ∧
    (liveState 1 2).inRange .pulse ∧ (liveState 1 2).inRange .noise ∧
    disjointSlices ⟨0, 3⟩ 3 ⟨3, 3⟩ 3 ∧ disjointSlices ⟨3, 3⟩ 3 ⟨0, 3⟩ 3 ∧
    exec (renderOf .pulse 3 ⟨0, 3⟩) (liveState 1 2) = .next (result (renderOf .pulse 3 ⟨0, 3⟩) (liveState 1 2)) ∧
    exec (renderOf .noise 3 ⟨3, 3⟩) (liveState 1 2) = .next (result (renderOf .noise 3 ⟨3, 3⟩) (liveState 1 2)) := by
  refine ⟨by decide, by decide, inRange_of_legal live_legal.1 _, inRange_of_legal live_legal.1 _, by decide, by decide,
    exec_result ?_, exec_result ?_⟩ <;> decide +kernel

/-- For `SamplesWithinGain`, at the last frame. -/
theorem witness_SamplesWithinGain : ∀ g : Channel, Memory.wf (liveState 1 2).dst ∧ (liveState 1 2).inRange g ∧
    triggerOf (liveState 1 2) g > 1 / 2 ∧
    exec (renderOf g 3 ⟨0, 3⟩) (liveState 1 2) = .next (result (renderOf g 3 ⟨0, 3⟩) (liveState 1 2)) ∧ 2 < 3 := by
  intro g
  refine ⟨by decide, inRange_of_legal live_legal.1 g, ?_, (witness_RenderFrame g).2.2.1, by decide⟩
  cases g <;> decide +kernel

/-- Frequencies 1 and 20000, one above the sample rate, duty cycles 0 and 1, a period below 32. -/
theorem witness_ThresholdsAreFloors : (0 : Sample) < 1 ∧ (1 : Sample) ≤ 1 ∧ (1 : Sample) ≤ 20000 ∧
    ((8 : Nat) : Sample) < 9 ∧ inUnit 0 ∧ inUnit 1 ∧ period 31 1 < 32 := by decide +kernel

theorem witness_PulseFrameRule : (0 : Nat) = (if (pulseState 8 1 1 1 1 9).pg.c > 8 then 0 else
      (pulseState 8 1 1 1 1 9).pg.c) ∧
    (8 : Nat) = (if (pulseState 8 1 1 1 1 8).pg.c > 8 then 0 else (pulseState 8 1 1 1 1 8).pg.c) ∧
    (1 : Sample) ≤ 1 ∧ 8 = period 8 1 := by decide +kernel

/-- For `PulseSpan`: the parameters of V-D1; the counter at 0, at the period and just above it. -/
theorem witness_PulseSpan : (∀ c, (spanState c).pg.live = true ∧ 8 ≤ (⟨0, 8⟩ : Slice).len ∧
      Memory.wf (spanState c).dst ∧ (spanState c).inRange .pulse ∧ (spanState c).pg.P.trigger > 1 / 2 ∧
      0 < (spanState c).pg.P.frequency ∧ 4 = period (spanState c).sampleRate (spanState c).pg.P.frequency ∧
      2 = highSamples 4 (spanState c).pg.P.dutyCycle) ∧
    0 = (if (spanState 0).pg.c > 4 then 0 else (spanState 0).pg.c) ∧
    4 = (if (spanState 4).pg.c > 4 then 0 else (spanState 4).pg.c) ∧
    0 = (if (spanState 5).pg.c > 4 then 0 else (spanState 5).pg.c) := by
  have ht : (1 : Sample) > 1 / 2 := by decide +kernel
  have hf : (0 : Sample) < 2 := by decide +kernel
  have hp : 4 = period 8 2 := by decide +kernel
  have hh : 2 = highSamples 4 (1 / 2) := by decide +kernel
  refine ⟨fun c => ⟨rfl, by decide, ⟨.nil, by simp [spanState, liveState, State.resetAt]⟩, ?_, ht, hf, hp, hh⟩, rfl, rfl, rfl⟩
  intro r _
  left
  cases r <;> exact live_legal.1 _

/-- For the three statements about disabled blocks. -/
theorem witness_DisabledBlocks : ∀ g : Channel, (liveState 0 2).live g = true ∧ 3 ≤ (⟨0, 3⟩ : Slice).len ∧
    (liveState 0 2).inRange g ∧ triggerOf (liveState 0 2) g ≤ 1 / 2 ∧ isTrigger 0 ∧ isTrigger 1 := by
  intro g
  refine ⟨by cases g <;> rfl, by decide, inRange_of_legal live_legal.2.1 g, ?_, .inl rfl, .inr rfl⟩
  cases g <;> decide +kernel

theorem witness_WaveFrameRule : (waveState 8 1 1 1 3 31 (Vector.replicate 32 0) none).wg.sampleCounter > 2 ∧
    (waveState 8 1 1 1 2 31 (Vector.replicate 32 0) none).wg.sampleCounter ≤ 2 := by decide

/-- For `WaveSpan` and `ConstantTables`: the waiting all-15 table plays. -/
theorem witness_WaveSpan : (liveState 1 2).wg.live = true ∧ 3 ≤ (⟨0, 3⟩ : Slice).len ∧ Memory.wf (liveState 1 2).dst ∧
    (liveState 1 2).inRange .wave ∧ (liveState 1 2).wg.P.trigger > 1 / 2 ∧ 0 < (liveState 1 2).wg.P.frequency ∧
    0 = stepSamples (period (liveState 1 2).sampleRate (liveState 1 2).wg.P.frequency) ∧
    0 = (if (liveState 1 2).wg.sampleCounter > 0 then 0 else (liveState 1 2).wg.sampleCounter) ∧
    31 = (if (liveState 1 2).wg.sampleCounter > 0 then (liveState 1 2).wg.stepIndex + 1 else
          (liveState 1 2).wg.stepIndex) ∧
    (∀ k, (tableToPlay (liveState 1 2).wg).get k = 15) ∧
    (∀ k, (tableToPlay (waveState 8 1 1 1 0 0 (Vector.replicate 32 0) none).wg).get k = 0) := by
  refine ⟨rfl, by decide, by decide, inRange_of_legal live_legal.1 _, ?_, ?_, ?_, rfl, rfl, ?_, ?_⟩ <;> decide +kernel

/-- With the step index at 31, the last entry, and the counter at the threshold and just above it. -/
theorem witness_SwapKeepsPhase : (∀ sc, (swapState sc).wg.live = true ∧
      (swapState sc).wg.slot = some (Vector.replicate 32 15) ∧ Memory.wf (swapState sc).dst ∧
      (swapState sc).inRange .wave ∧ (swapState sc).wg.P.trigger > 1 / 2 ∧ 0 < (swapState sc).wg.P.frequency ∧
      1 ≤ (⟨0, 1⟩ : Slice).len) ∧
    (swapState 0).wg.sampleCounter ≤ stepSamples (period (swapState 0).sampleRate (swapState 0).wg.P.frequency) ∧
    (swapState 1).wg.sampleCounter > stepSamples (period (swapState 1).sampleRate (swapState 1).wg.P.frequency) := by
  have ht : (1 : Sample) > 1 / 2 := by decide +kernel
  have hf : (0 : Sample) < 2 := by decide +kernel
  refine ⟨fun sc => ⟨rfl, rfl, ⟨.nil, by simp [swapState, liveState, State.resetAt]⟩, ?_, ht, hf, by decide⟩, ?_, ?_⟩
  · intro r _
    left
    cases r <;> exact live_legal.1 _
  · decide +kernel
  · decide +kernel

/-- For the second part of `ReplacementIdempotent`. -/
theorem witness_ReplacementIdempotent : (liveState 1 2).wg.live = true ∧ codesFit vd7Codes = true ∧
    (liveState 1 2).inRange .wave ∧
    andThen (exec (.wpost vd7Codes) (liveState 1 2)) (exec (.renderW 3 ⟨0, 3⟩)) =
      .next (result (.renderW 3 ⟨0, 3⟩) (result (.wpost vd7Codes) (liveState 1 2))) := by
  refine ⟨rfl, by decide, inRange_of_legal live_legal.1 _, ?_⟩
  have h : completes (exec (.renderW 3 ⟨0, 3⟩) (result (.wpost vd7Codes) (liveState 1 2))) = true := by decide +kernel
  rw [exec_result (by decide +kernel : completes (exec (.wpost vd7Codes) (liveState 1 2)) = true)]
  exact exec_result h

/-- For `NewestTableWins`, `WpostRule` and `WloadPostsUnpackedTable`. -/
theorem witness_WpostRule : ((liveState 1 2).wg.live = true ∧ codesFit vd7Codes = true ∧
      codesFit (Vector.replicate 32 15) = true ∧ (∀ k, vd7Codes.get k ≤ 15) ∧ unpack vd7Words = tableOfCodes vd7Codes ∧
      State.reset.wg.live = false ∧ Memory.wf (liveState 1 2).dst ∧ (liveState 1 2).wg.P.trigger > 1 / 2) ∧
    (liveState 1 2).inRange .wave ∧
    ∃ t, exec (.wpost (Vector.replicate 32 15)) (liveState 1 2) = .next t ∧
      exec (.renderW 3 ⟨0, 3⟩) t = .next (result (.renderW 3 ⟨0, 3⟩) t) := by
  refine ⟨by decide +kernel, inRange_of_legal live_legal.1 _, _, exec_result (by decide +kernel), exec_result ?_⟩
  decide +kernel

theorem witness_UpperHalvesIgnored : ∀ k : Fin 8, ((Vector.replicate 8 0x12345678
      : Vector PackedWord 8).get k).extractLsb' 0 16 =
    ((Vector.replicate 8 0xABCD5678 : Vector PackedWord 8).get k).extractLsb' 0 16 := by decide

theorem witness_CodeAboveFifteenRefused : (liveState 1 2).wg.live = true ∧
    ((Vector.replicate 32 0).set 31 16 : Vector Nat 32).get 31 > 15 := by decide +kernel

theorem witness_ShortTickRule : 0 < 15 ∧ 14 < 15 := by decide

theorem witness_ShortModeSevenBits : (0x0FFF : ShiftReg).extractLsb' 0 7 = (0x7F7F : ShiftReg).extractLsb' 0 7 :=
      by decide

/-- For `NoiseCadence`: the tick counter just above the period. -/
theorem witness_NoiseCadence : (noiseState 8 1 1 2 1 5 0).ng.live = true ∧ 3 ≤ (⟨0, 3⟩ : Slice).len ∧
    Memory.wf (noiseState 8 1 1 2 1 5 0).dst ∧ (noiseState 8 1 1 2 1 5 0).inRange .noise ∧
    (noiseState 8 1 1 2 1 5 0).ng.P.trigger > 1 / 2 ∧ 0 < (noiseState 8 1 1 2 1 5 0).ng.P.frequency ∧
    4 = period 8 2 ∧ true = decide ((noiseState 8 1 1 2 1 5 0).ng.P.width > 1 / 2) ∧
    0 = (if (noiseState 8 1 1 2 1 5 0).ng.c > 4 then 0 else (noiseState 8 1 1 2 1 5 0).ng.c) ∧
    0x4040 = (if (noiseState 8 1 1 2 1 5 0).ng.c > 4 then (if true then tickShort else tickLong) (noiseState 8 1 1 2 1 5 0).ng.lfsr
      else (noiseState 8 1 1 2 1 5 0).ng.lfsr) := by
  have hr : (noiseState 8 1 1 2 1 5 0).inRange .noise := inRange_of_legal (fun r => by cases r <;> decide +kernel) _
  refine ⟨rfl, by decide, by decide, hr, ?_, ?_, ?_, ?_, rfl, rfl⟩ <;> decide +kernel

/-- For `LockUpPersists`, its last clause included. -/
theorem witness_LockUpPersists : renderInRange (.renderN 3 ⟨0, 3⟩) (liveState 1 2) ∧
    exec (.renderN 3 ⟨0, 3⟩) (liveState 1 2) = .next (result (.renderN 3 ⟨0, 3⟩) (liveState 1 2)) ∧
    (liveState 1 2).ng.live = true ∧ (liveState 1 2).ng.lfsr = 0x7FFF ∧ Memory.wf (liveState 1 2).dst ∧
    (liveState 1 2).ng.P.trigger > 1 / 2 ∧ 2 < 3 := by
  refine ⟨fun g _ _ _ => inRange_of_legal live_legal.1 g, exec_result ?_, rfl, rfl, by decide, ?_, by decide⟩ <;>
    decide +kernel

/-- A live state with a RENDER pending meets the hypotheses of the invariant's step. -/
theorem witness_StepKeepsInvariant :
    ((result .createP (State.resetAt 8)).setPending [encode (.renderP 3 ⟨0, 3⟩)]).inv ∧
    ((result .createP (State.resetAt 8)).setPending [encode (.renderP 3 ⟨0, 3⟩)]).stepInRange ∧
    (∀ g, ((result .createP (State.resetAt 8)).setPending [encode (.renderP 3 ⟨0, 3⟩)]).latchInRange g) ∧
    ∃ t, step ((result .createP (State.resetAt 8)).setPending [encode (.renderP 3 ⟨0, 3⟩)]) = .next t := by
  refine ⟨⟨by decide, by decide +kernel, by decide +kernel, by decide +kernel, fun g _ => ?_⟩,
    fun _ _ _ _ _ _ _ _ _ r _ => .inl ?_, fun _ r _ => .inl ?_, next_of_completes (by decide +kernel)⟩
  · cases g <;> decide +kernel
  · cases r <;> decide +kernel
  · cases r <;> decide +kernel

/-- For `ContractKeepsBounds` and `ContractNeverFaults`. -/
theorem witness_ContractKeepsBounds : (queued (encode (.renderN 3 ⟨0, 3⟩))).parametersLegal ∧
    (queued (encode (.renderN 3 ⟨0, 3⟩))).pendingLegal ∧ (queued (encode (.renderN 3 ⟨0, 3⟩))).countersBounded ∧
    ∃ t, step (queued (encode (.renderN 3 ⟨0, 3⟩))) = .next t := by
  refine ⟨fun r => ?_, ?_, by decide +kernel, ?_⟩
  · cases r <;> decide +kernel
  · intro c hc i hi
    obtain rfl : c = encode (.renderN 3 ⟨0, 3⟩) := by simpa [queued] using hc
    have : decode (encode (.renderN 3 ⟨0, 3⟩)) = .ok (.renderN 3 ⟨0, 3⟩) := rfl
    rw [this] at hi
    cases hi
    rfl
  · exact next_of_completes (by decide +kernel)

end Sys2Proof.Tests
end

section
/-! 10_state.md: the generators do not reach each other (R40), and what persists between two RENDERs (R43).

Both rest on one lemma, `exec_adopt`: an operation that completes stores its own generator and the samples, and stores the
same ones from every state that agrees on that generator, the samples and the sample rate. -/

namespace Sys2Proof.Machine

/-! ## The operations by family -/

/-- Every operation is a CREATE, a DESTROY, a SETP, a RENDER or one of the two POSTs of the control thread. -/
theorem instr_family_cases (i : Instr) :
    (∃ g, i = createOf g) ∨ (∃ g, i = destroyOf g) ∨ (∃ r v, setpTarget i = some (r, v)) ∨
      (∃ g F d, i = renderOf g F d) ∨ (∃ w, i = .wload w) ∨ (∃ c, i = .wpost c) := by
  cases i with
  | createP => exact .inl ⟨.pulse, rfl⟩
  | createW => exact .inl ⟨.wave, rfl⟩
  | createN => exact .inl ⟨.noise, rfl⟩
  | destroyP => exact .inr (.inl ⟨.pulse, rfl⟩)
  | destroyW => exact .inr (.inl ⟨.wave, rfl⟩)
  | destroyN => exact .inr (.inl ⟨.noise, rfl⟩)
  | renderP F d => exact .inr (.inr (.inr (.inl ⟨.pulse, F, d, rfl⟩)))
  | renderW F d => exact .inr (.inr (.inr (.inl ⟨.wave, F, d, rfl⟩)))
  | renderN F d => exact .inr (.inr (.inr (.inl ⟨.noise, F, d, rfl⟩)))
  | wload w => exact .inr (.inr (.inr (.inr (.inl ⟨w, rfl⟩))))
  | wpost c => exact .inr (.inr (.inr (.inr (.inr ⟨c, rfl⟩))))
  | _ => exact .inr (.inr (.inl ⟨_, _, rfl⟩))

@[simp] theorem createOf_channel (g : Channel) : (createOf g).channel = g := by cases g <;> rfl
@[simp] theorem destroyOf_channel (g : Channel) : (destroyOf g).channel = g := by cases g <;> rfl
@[simp] theorem renderOf_channel (g : Channel) (F : Nat) (d : Slice) : (renderOf g F d).channel = g := by
  cases g <;> rfl

/-- A SETP acts on the generator whose register it writes. -/
theorem setpTarget_channel {i : Instr} {r : ParReg} {v : Sample} (h : setpTarget i = some (r, v)) :
    r.channel = i.channel := by
  cases i <;> simp only [setpTarget, Option.some.injEq, Prod.mk.injEq, reduceCtorEq] at h <;>
    (obtain ⟨rfl, rfl⟩ := h; rfl)

/-- A SETP that completes is the write of its register. -/
theorem exec_setp_next_iff {i : Instr} {r : ParReg} {v : Sample} (hi : setpTarget i = some (r, v)) {s t : State} :
    exec i s = .next t ↔ s.live r.channel = true ∧ t = parWrite s r v := by
  rw [exec_setp hi, setp_next_iff]

/-! ## Taking over one generator and the samples -/

/-- The state `s` with the generator `g` and the samples of `t`. -/
def State.adopt (s : State) (g : Channel) (t : State) : State :=
  match g with
  | .pulse => (s.setPg t.pg).setDst t.dst
  | .wave => (s.setWg t.wg).setDst t.dst
  | .noise => (s.setNg t.ng).setDst t.dst

theorem sameGen_refl (g : Channel) (s : State) : sameGen g s s := by cases g <;> rfl

theorem sameGen_adopt_own (g : Channel) (s t : State) : sameGen g t (s.adopt g t) := by cases g <;> rfl

theorem sameGen_adopt_other {g c : Channel} (h : g ≠ c) (s t : State) : sameGen g s (s.adopt c t) := by
  cases c <;> cases g <;> simp [sameGen, State.adopt] at h ⊢

@[simp] theorem State.adopt_dst (s : State) (g : Channel) (t : State) : (s.adopt g t).dst = t.dst := by
  cases g <;> rfl

/-- Where the samples agree, only the generator is taken over. -/
theorem adopt_pulse_eq {s t : State} (h : s.dst = t.dst) : s.adopt .pulse t = s.setPg t.pg := by
  simp only [State.adopt, ← h]; rfl

theorem adopt_wave_eq {s t : State} (h : s.dst = t.dst) : s.adopt .wave t = s.setWg t.wg := by
  simp only [State.adopt, ← h]; rfl

theorem adopt_noise_eq {s t : State} (h : s.dst = t.dst) : s.adopt .noise t = s.setNg t.ng := by
  simp only [State.adopt, ← h]; rfl

/-- Liveness is a part of the generator. -/
theorem live_congr {g : Channel} {s s' : State} (h : sameGen g s s') : s'.live g = s.live g := by
  cases g with
  | pulse => exact congrArg PulseGen.live h
  | wave => exact congrArg WaveGen.live h
  | noise => exact congrArg NoiseGen.live h

/-- A parameter write stores the register's own generator, computed from that generator alone. -/
theorem parWrite_adopt {r : ParReg} {v : Sample} {s s' : State} (hg : sameGen r.channel s s') (hd : s'.dst = s.dst) :
    parWrite s' r v = s'.adopt r.channel (parWrite s r v) := by
  have hd' : s'.dst = (parWrite s r v).dst := hd.trans (parWrite_frame s r v).2.1.symm
  cases r <;> simp only [ParReg.channel, sameGen] at hg ⊢ <;>
    simp only [adopt_pulse_eq hd', adopt_wave_eq hd', adopt_noise_eq hd'] <;>
    simp only [parWrite, hg, State.setPg_pg, State.setWg_wg, State.setNg_ng]

/-! ## An operation stores its own generator and the samples -/

section
variable {s s' t : State}

theorem exec_createOf_adopt {g : Channel} (h : exec (createOf g) s = .next t) (hg : sameGen g s s')
    (hd : s'.dst = s.dst) : exec (createOf g) s' = .next (s'.adopt g t) := by
  have hl := live_congr hg
  cases g with
  | pulse =>
    obtain ⟨hn, rfl⟩ := execCreateP_next_iff.1 h
    exact execCreateP_next_iff.2 ⟨hl.trans hn, adopt_pulse_eq hd⟩
  | wave =>
    obtain ⟨hn, rfl⟩ := execCreateW_next_iff.1 h
    exact execCreateW_next_iff.2 ⟨hl.trans hn, adopt_wave_eq hd⟩
  | noise =>
    obtain ⟨hn, rfl⟩ := execCreateN_next_iff.1 h
    exact execCreateN_next_iff.2 ⟨hl.trans hn, adopt_noise_eq hd⟩

theorem exec_destroyOf_adopt {g : Channel} (h : exec (destroyOf g) s = .next t) (hg : sameGen g s s')
    (hd : s'.dst = s.dst) : exec (destroyOf g) s' = .next (s'.adopt g t) := by
  have hl := live_congr hg
  cases g with
  | pulse =>
    obtain ⟨hn, rfl⟩ := execDestroyP_next_iff.1 h
    exact execDestroyP_next_iff.2 ⟨hl.trans hn, adopt_pulse_eq hd⟩
  | wave =>
    obtain ⟨hn, rfl⟩ := execDestroyW_next_iff.1 h
    exact execDestroyW_next_iff.2 ⟨hl.trans hn, adopt_wave_eq hd⟩
  | noise =>
    obtain ⟨hn, rfl⟩ := execDestroyN_next_iff.1 h
    exact execDestroyN_next_iff.2 ⟨hl.trans hn, adopt_noise_eq hd⟩

theorem exec_renderOf_adopt {g : Channel} {F : Nat} {d : Slice} (h : exec (renderOf g F d) s = .next t)
    (hg : sameGen g s s') (hr : s'.sampleRate = s.sampleRate) (hd : s'.dst = s.dst) :
    exec (renderOf g F d) s' = .next (s'.adopt g t) := by
  cases g with
  | pulse =>
    obtain ⟨γ, f, gain, n, g₀, G, -, hG⟩ := execRenderP_effect h
    obtain rfl := Host.Outcome.next.inj (h.symm.trans (hG s rfl rfl))
    exact (hG s' hg hr).trans (by rw [hd]; rfl)
  | wave =>
    obtain ⟨γ, f, gain, n, g₀, G, -, hG⟩ := execRenderW_effect h
    obtain rfl := Host.Outcome.next.inj (h.symm.trans (hG s rfl rfl))
    exact (hG s' hg hr).trans (by rw [hd]; rfl)
  | noise =>
    obtain ⟨γ, f, gain, n, g₀, G, -, hG⟩ := execRenderN_effect h
    obtain rfl := Host.Outcome.next.inj (h.symm.trans (hG s rfl rfl))
    exact (hG s' hg hr).trans (by rw [hd]; rfl)

theorem exec_wload_adopt {w : Vector PackedWord 8} (h : exec (.wload w) s = .next t) (hg : s'.wg = s.wg)
    (hd : s'.dst = s.dst) : exec (.wload w) s' = .next (s'.adopt .wave t) := by
  obtain ⟨hl, rfl⟩ := execWload_next_iff.1 h
  exact execWload_next_iff.2 ⟨by rw [hg, hl], hg ▸ adopt_wave_eq hd⟩

theorem exec_wpost_adopt {c : Vector Nat 32} (h : exec (.wpost c) s = .next t) (hg : s'.wg = s.wg)
    (hd : s'.dst = s.dst) : exec (.wpost c) s' = .next (s'.adopt .wave t) := by
  obtain ⟨hl, hc, rfl⟩ := execWpost_next_iff.1 h
  exact execWpost_next_iff.2 ⟨by rw [hg, hl], hc, hg ▸ adopt_wave_eq hd⟩

/-- An operation that completes stores its own generator and the samples and nothing else, and it stores the same ones from
every state with that generator, those samples and that sample rate (10_state.md R40). -/
theorem exec_adopt {i : Instr} (h : exec i s = .next t) (hg : sameGen i.channel s s')
    (hr : s'.sampleRate = s.sampleRate) (hd : s'.dst = s.dst) : exec i s' = .next (s'.adopt i.channel t) := by
  obtain ⟨g, rfl⟩ | ⟨g, rfl⟩ | ⟨r, v, hi⟩ | ⟨g, F, d, rfl⟩ | ⟨w, rfl⟩ | ⟨c, rfl⟩ := instr_family_cases i
  · rw [createOf_channel] at hg ⊢
    exact exec_createOf_adopt h hg hd
  · rw [destroyOf_channel] at hg ⊢
    exact exec_destroyOf_adopt h hg hd
  · obtain ⟨hl, rfl⟩ := (exec_setp_next_iff hi).1 h
    rw [← setpTarget_channel hi] at hg ⊢
    exact (exec_setp_next_iff hi).2 ⟨(live_congr hg).trans hl, (parWrite_adopt hg hd).symm⟩
  · rw [renderOf_channel] at hg ⊢
    exact exec_renderOf_adopt h hg hr hd
  · exact exec_wload_adopt h hg hd
  · exact exec_wpost_adopt h hg hd

/-- What an operation leaves alone: everything but its own generator and the samples. -/
theorem exec_eq_adopt {i : Instr} (h : exec i s = .next t) : t = s.adopt i.channel t :=
  Host.Outcome.next.inj (h.symm.trans (exec_adopt h (sameGen_refl _ _) rfl rfl))

/-- No operation writes the state of another generator (10_state.md R40). -/
theorem exec_sameGen_other {i : Instr} {g : Channel} (h : exec i s = .next t) (hg : g ≠ i.channel) :
    sameGen g s t := by
  rw [exec_eq_adopt h]
  exact sameGen_adopt_other hg s t

end

/-- Settles O50: an operation reads and stores its own generator, the samples and the sample rate alone (`exec_adopt`). -/
theorem generatorsIndependent : Obligations.GeneratorsIndependent := by
  intro i s t _ h
  refine ⟨fun g hg => exec_sameGen_other h hg, fun s' hr hd hg => ?_⟩
  exact ⟨_, exec_adopt h hg hr hd, sameGen_adopt_own _ s' t, State.adopt_dst s' _ t⟩

/-! ## What persists between two RENDERs (10_state.md R43) -/

/-- The generator `g` has the same parameter registers in two states. -/
def sameParams (g : Channel) (s t : State) : Prop :=
  match g with
  | .pulse => t.pg.P = s.pg.P
  | .wave => t.wg.P = s.wg.P
  | .noise => t.ng.P = s.ng.P

/-- The generator `g` of `t` differs from that of `s` in its parameter registers and its mailbox at most. -/
def sameBeyondParams (g : Channel) (s t : State) : Prop :=
  match g with
  | .pulse => t.pg = { s.pg with P := t.pg.P }
  | .wave => t.wg = { s.wg with P := t.wg.P, slot := t.wg.slot }
  | .noise => t.ng = { s.ng with P := t.ng.P }

/-- The snapshot of the generator `g` in `t` holds its parameter registers of `s` (10_state.md R28). -/
def latchedFrom (g : Channel) (s t : State) : Prop :=
  match g with
  | .pulse => t.pg.S = s.pg.P
  | .wave => t.wg.S = s.wg.P
  | .noise => t.ng.S = s.ng.P

section
variable {g : Channel} {s t : State}

theorem sameParams_of_sameGen (h : sameGen g s t) : sameParams g s t := by
  cases g with
  | pulse => exact congrArg PulseGen.P h
  | wave => exact congrArg WaveGen.P h
  | noise => exact congrArg NoiseGen.P h

theorem sameBeyondParams_of_sameGen (h : sameGen g s t) : sameBeyondParams g s t := by
  cases g <;> simp only [sameGen] at h <;> simp only [sameBeyondParams, h]

theorem sameBeyondParams_parWrite (g : Channel) (s : State) (r : ParReg) (v : Sample) :
    sameBeyondParams g s (parWrite s r v) := by
  cases r <;> cases g <;> rfl

/-- A RENDER latches the parameter registers and keeps them (40_block_datapath.md R101). -/
theorem exec_renderOf_params {F : Nat} {d : Slice} (h : exec (renderOf g F d) s = .next t) :
    latchedFrom g s t ∧ sameParams g s t := by
  cases g with
  | pulse =>
    obtain ⟨-, -, c, m, rfl, -⟩ := execRenderP_frame h
    exact ⟨rfl, rfl⟩
  | wave =>
    obtain ⟨-, -, c, k, m, rfl, -⟩ := execRenderW_frame h
    exact ⟨WaveGen.enter_S s.wg, WaveGen.enter_P s.wg⟩
  | noise =>
    obtain ⟨-, -, c, k, m, rfl, -⟩ := execRenderN_frame h
    rw [NoiseGen.enter_eq]
    exact ⟨rfl, rfl⟩

/-- A POST of the control thread changes the mailbox alone. -/
theorem exec_post_eq {i : Instr} (hi : (∃ w, i = .wload w) ∨ ∃ c, i = .wpost c) (h : exec i s = .next t) :
    ∃ table, t = s.setWg (s.wg.post table) := by
  obtain ⟨w, rfl⟩ | ⟨c, rfl⟩ := hi
  · exact ⟨_, (execWload_next_iff.1 h).2⟩
  · exact ⟨_, (execWpost_next_iff.1 h).2.2⟩

/-- Whatever is no RENDER, CREATE or DESTROY of a generator changes its parameter registers and mailbox at most. -/
theorem exec_sameBeyondParams {i : Instr} (h : exec i s = .next t) (hr : ∀ F d, i ≠ renderOf g F d)
    (hc : i ≠ createOf g) (hd : i ≠ destroyOf g) : sameBeyondParams g s t := by
  by_cases hg : g = i.channel
  case neg => exact sameBeyondParams_of_sameGen (exec_sameGen_other h hg)
  obtain ⟨g', rfl⟩ | ⟨g', rfl⟩ | ⟨r, v, hi⟩ | ⟨g', F, d, rfl⟩ | hi := instr_family_cases i
  · rw [createOf_channel] at hg
    exact absurd (hg ▸ rfl) hc
  · rw [destroyOf_channel] at hg
    exact absurd (hg ▸ rfl) hd
  · obtain ⟨-, rfl⟩ := (exec_setp_next_iff hi).1 h
    exact sameBeyondParams_parWrite g s r v
  · rw [renderOf_channel] at hg
    exact absurd (hg ▸ rfl) (hr F d)
  · obtain ⟨table, rfl⟩ := exec_post_eq hi h
    cases g <;> rfl

/-- The operations that reach the parameter registers of a generator. -/
theorem exec_sameParams_cases {i : Instr} (g : Channel) (h : exec i s = .next t) :
    sameParams g s t ∨ (∃ r v, setpTarget i = some (r, v) ∧ r.channel = g) ∨ i = createOf g ∨ i = destroyOf g := by
  by_cases hg : g = i.channel
  case neg => exact .inl (sameParams_of_sameGen (exec_sameGen_other h hg))
  subst hg
  obtain ⟨g, rfl⟩ | ⟨g, rfl⟩ | ⟨r, v, hi⟩ | ⟨g, F, d, rfl⟩ | hi := instr_family_cases i
  · simp
  · simp
  · exact .inr (.inl ⟨r, v, hi, setpTarget_channel hi⟩)
  · rw [renderOf_channel]
    exact .inl (exec_renderOf_params h).2
  · obtain ⟨table, rfl⟩ := exec_post_eq hi h
    obtain ⟨w, rfl⟩ | ⟨c, rfl⟩ := hi <;> exact .inl rfl

/-- The operations that reach the mailbox (10_state.md R34, R44). -/
theorem exec_slot_cases {i : Instr} (h : exec i s = .next t) :
    t.wg.slot = s.wg.slot ∨ (∃ w, i = .wload w) ∨ (∃ c, i = .wpost c) ∨ (∃ F d, i = .renderW F d) ∨ i = .createW ∨
      i = .destroyW := by
  by_cases hg : Channel.wave = i.channel
  case neg => exact .inl (congrArg WaveGen.slot (exec_sameGen_other h hg))
  obtain ⟨g, rfl⟩ | ⟨g, rfl⟩ | ⟨r, v, hi⟩ | ⟨g, F, d, rfl⟩ | ⟨w, rfl⟩ | ⟨c, rfl⟩ := instr_family_cases i
  · obtain rfl : Channel.wave = g := by simpa using hg
    exact .inr (.inr (.inr (.inr (.inl rfl))))
  · obtain rfl : Channel.wave = g := by simpa using hg
    exact .inr (.inr (.inr (.inr (.inr rfl))))
  · obtain ⟨-, rfl⟩ := (exec_setp_next_iff hi).1 h
    obtain ⟨-, -, -, -, hw, -⟩ := parWrite_frame s r v
    exact .inl (by rw [hw])
  · obtain rfl : Channel.wave = g := by simpa using hg
    exact .inr (.inr (.inr (.inl ⟨F, d, rfl⟩)))
  · exact .inr (.inl ⟨w, rfl⟩)
  · exact .inr (.inr (.inl ⟨c, rfl⟩))

end

/-- Settles O51: `exec_sameBeyondParams` and `exec_sameParams_cases` at each generator, `exec_slot_cases` for the mailbox and
`exec_renderOf_params` for the latch. -/
theorem persistBetweenRenders : Obligations.PersistBetweenRenders := by
  intro i s t _ h
  refine ⟨exec_sameBeyondParams (g := .pulse) h, exec_sameBeyondParams (g := .wave) h,
    exec_sameBeyondParams (g := .noise) h, exec_sameParams_cases .pulse h, exec_sameParams_cases .wave h,
    exec_sameParams_cases .noise h, exec_slot_cases h, fun F d => ⟨?_, ?_, ?_⟩⟩
  · rintro rfl
    exact (exec_renderOf_params (g := .pulse) h).1
  · rintro rfl
    exact (exec_renderOf_params (g := .wave) h).1
  · rintro rfl
    exact (exec_renderOf_params (g := .noise) h).1

end Sys2Proof.Machine
end

section
/-! 20_memory.md: the logical order of a packed payload (R57). -/

namespace Sys2Proof.Machine

/-- The four entries of word `k`: entry `4k + j` is the nibble of `w.get k` that `unpackEntry_eq` names for `j`
(20_memory.md R57). -/
theorem unpack_get_four_mul_add (w : Vector PackedWord 8) (k : Fin 8) {j : Nat} (hj : j < 4) :
    (unpack w).get (Fin.ofNat 32 (4 * k.val + j)) =
      (w.get k).extractLsb' (j / 2 * 8 + if j % 2 = 0 then 4 else 0) 4 := by
  have hval : (Fin.ofNat 32 (4 * k.val + j)).val = 4 * k.val + j := Nat.mod_eq_of_lt (by omega)
  have hword : Fin.ofNat 8 ((4 * k.val + j) / 4) = k := by
    rw [show (4 * k.val + j) / 4 = k.val by omega]
    exact Fin.ofNat_val_eq_self k
  have hmod4 : (4 * k.val + j) % 4 = j := by omega
  have hmod2 : (4 * k.val + j) % 2 = j % 2 := by omega
  rw [unpack_get, hval, hword, unpackEntry_eq, hmod4, hmod2]

/-- Settles O36: `unpack_get_four_mul_add` at each of the four entries of a word. -/
theorem unpackLayout : Obligations.UnpackLayout := fun w k =>
  ⟨unpack_get_four_mul_add w k (j := 0) (by decide), unpack_get_four_mul_add w k (j := 1) (by decide),
    unpack_get_four_mul_add w k (j := 2) (by decide), unpack_get_four_mul_add w k (j := 3) (by decide)⟩

end Sys2Proof.Machine
end

section
/-! 30_encoding.md: the amplitude of a wavetable code (R78). -/

namespace Sys2Proof.Machine

/-- The amplitude in the source's form (30_encoding.md R78). -/
theorem amplitude_eq_one_sub (n : Code) : amplitude n = 1 - 2 * ((n.toNat : Sample) / 15) := by
  unfold amplitude
  ring

/-- The code is inverted with respect to the amplitude. -/
theorem amplitude_lt_amplitude_iff {m n : Code} : amplitude n < amplitude m ↔ m < n := by
  calc amplitude n < amplitude m
      ↔ (m.toNat : Sample) < n.toNat := by
        rw [amplitude_eq_one_sub, amplitude_eq_one_sub]
        constructor <;> intro h <;> linarith
    _ ↔ m < n := Nat.cast_lt.trans BitVec.lt_def.symm

/-- No code is silent: `15 - 2n` is odd. -/
theorem amplitude_ne_zero (n : Code) : amplitude n ≠ 0 := by
  intro h
  have hcast : (15 : Sample) = (2 * n.toNat : ℕ) := by
    rw [amplitude_eq_one_sub] at h
    push_cast
    linarith
  have hodd : 15 = 2 * n.toNat := by exact_mod_cast hcast
  omega

/-- The amplitude of a code given as a number (30_encoding.md R78, the table). -/
theorem amplitude_ofNat {k : Nat} (hk : k < 16) : amplitude (BitVec.ofNat 4 k) = 1 - 2 * ((k : Sample) / 15) := by
  rw [amplitude_eq_one_sub, BitVec.toNat_ofNat, Nat.mod_eq_of_lt hk]

/-- Settles O38: the source's form of the formula, read at the four codes named (`amplitude_ofNat`), with the order of the
levels and their distance from 0 from `amplitude_lt_amplitude_iff` and `amplitude_ne_zero`. -/
theorem amplitudeCodes : Obligations.AmplitudeCodes := by
  refine ⟨amplitude_eq_one_sub, ?_, ?_, fun _ _ => amplitude_lt_amplitude_iff.2, amplitude_ne_zero, ?_, ?_⟩
  · exact (amplitude_ofNat (k := 0) (by decide)).trans (by norm_num)
  · exact (amplitude_ofNat (k := 15) (by decide)).trans (by norm_num)
  · exact (amplitude_ofNat (k := 7) (by decide)).trans (by norm_num)
  · exact (amplitude_ofNat (k := 8) (by decide)).trans (by norm_num)

end Sys2Proof.Machine
end

section
/-! 40_block_datapath.md: the enable flag moves only at a RENDER (R102). -/

namespace Sys2Proof.Machine

section
variable {g : Channel} {s t : State}

theorem latchedTriggerOf_of_latchedFrom (h : latchedFrom g s t) : latchedTriggerOf t g = triggerOf s g := by
  cases g with
  | pulse => exact congrArg PulseParams.trigger h
  | wave => exact congrArg WaveParams.trigger h
  | noise => exact congrArg NoiseParams.trigger h

theorem enableFlag_of_sameBeyondParams (h : sameBeyondParams g s t) : enableFlag t g = enableFlag s g := by
  cases g with
  | pulse => exact (congrArg PulseGen.enabled h :)
  | wave => exact (congrArg WaveGen.enabled h :)
  | noise => exact (congrArg NoiseGen.enabled h :)

/-- The enable test of a RENDER reads the trigger register; the frame loop leaves its answer alone. -/
theorem exec_renderOf_enableFlag {F : Nat} {d : Slice} (h : exec (renderOf g F d) s = .next t) :
    enableFlag t g = enabledOf (triggerOf s g) := by
  cases g with
  | pulse =>
    obtain ⟨-, -, c, m, rfl, -⟩ := execRenderP_frame h
    rfl
  | wave =>
    obtain ⟨-, -, c, k, m, rfl, -⟩ := execRenderW_frame h
    exact WaveGen.enter_enabled s.wg
  | noise =>
    obtain ⟨-, -, c, k, m, rfl, -⟩ := execRenderN_frame h
    exact congrArg NoiseGen.enabled (NoiseGen.enter_eq s.ng)

end

/-- Settles O13: at a RENDER the flag is the enable test of the trigger just latched (`exec_renderOf_enableFlag`,
`exec_renderOf_params`); any other operation but CREATE and DESTROY reaches the parameter registers and the mailbox at most
(`exec_sameBeyondParams`). -/
theorem enableFlagRule : Obligations.EnableFlagRule := by
  intro i s t _ h g
  refine ⟨?_, fun hr hc hd => enableFlag_of_sameBeyondParams (exec_sameBeyondParams h hr hc hd)⟩
  rintro F d rfl
  have hlatch := latchedTriggerOf_of_latchedFrom (exec_renderOf_params h).1
  refine ⟨hlatch, ?_⟩
  rw [hlatch]
  exact exec_renderOf_enableFlag h

end Sys2Proof.Machine
end

section
/-! 41_pulse.md: the thresholds of a block (R121, R122; 42_wavetable.md R145). -/

namespace Sys2Proof.Machine

/-- `period` is the natural floor of the quotient (41_pulse.md R121). -/
theorem period_eq_natFloor (r : ℕ+) (f : Sample) : period r f = ⌊((r : Nat) : Sample) / f⌋₊ :=
  Int.floor_toNat (((r : Nat) : Sample) / f)

/-- `highSamples` is the integer floor of the product (41_pulse.md R122). -/
theorem highSamples_eq_floor (p : Nat) (q : Sample) : highSamples p q = ⌊(p : Sample) * q⌋ := rfl

theorem period_floor_bounds (r : ℕ+) {f : Sample} (hf : 0 < f) :
    (period r f : Sample) ≤ ((r : Nat) : Sample) / f ∧ ((r : Nat) : Sample) / f < (period r f : Sample) + 1 := by
  have hq : 0 ≤ ((r : Nat) : Sample) / f := div_nonneg (Nat.cast_nonneg _) hf.le
  rw [period_eq_natFloor]
  exact ⟨Nat.floor_le hq, Nat.lt_floor_add_one _⟩

/-- A frequency of at most 20000 bounds the period from below, as `period_le_rate` does from above for one of at least 1. -/
theorem rate_div_le_period (r : ℕ+) {f : Sample} (hf : 0 < f) (hmax : f ≤ 20000) : (r : Nat) / 20000 ≤ period r f := by
  have hq : ((r : Nat) : Sample) / (20000 : ℕ) ≤ ((r : Nat) : Sample) / f :=
    div_le_div_of_nonneg_left (Nat.cast_nonneg _) hf (by exact_mod_cast hmax)
  rw [period_eq_natFloor, ← Nat.floor_div_eq_div (K := Sample)]
  exact Nat.floor_le_floor hq

/-- A frequency above the sample rate leaves no whole sample to a period (41_pulse.md R131). -/
theorem period_eq_zero_of_rate_lt {r : ℕ+} {f : Sample} (hf : 0 < f) (h : ((r : Nat) : Sample) < f) :
    period r f = 0 := by
  rw [period_eq_natFloor, Nat.floor_eq_zero]
  exact (div_lt_one hf).2 h

theorem highSamples_floor_bounds (p : Nat) (q : Sample) :
    (highSamples p q : Sample) ≤ (p : Sample) * q ∧ (p : Sample) * q < (highSamples p q : Sample) + 1 := by
  rw [highSamples_eq_floor]
  exact ⟨Int.floor_le _, Int.lt_floor_add_one _⟩

/-- A duty cycle in [0, 1] makes `highSamples` a part of the period. -/
theorem highSamples_range (p : Nat) {q : Sample} (hq : inUnit q) :
    0 ≤ highSamples p q ∧ highSamples p q ≤ (p : Int) := by
  obtain ⟨h0, h1⟩ := hq
  have hp : (0 : Sample) ≤ p := Nat.cast_nonneg _
  rw [highSamples_eq_floor]
  refine ⟨Int.floor_nonneg.2 (mul_nonneg hp h0), ?_⟩
  have hle : (⌊(p : Sample) * q⌋ : Sample) ≤ p := (Int.floor_le _).trans (mul_le_of_le_one_right hp h1)
  exact_mod_cast hle

theorem stepSamples_floor_bounds (p : Nat) : 32 * stepSamples p ≤ p ∧ p < 32 * (stepSamples p + 1) := by
  unfold stepSamples
  omega

/-- Settles O22: the floor bounds of each threshold, `period_le_rate` and `rate_div_le_period` for the legal frequencies, and
`highSamples_range` for the legal duty cycles. -/
theorem thresholdsAreFloors : Obligations.ThresholdsAreFloors := by
  intro r f q hf
  exact ⟨period_floor_bounds r hf, fun hmin hmax => ⟨rate_div_le_period r hf hmax, period_le_rate hmin⟩,
    period_eq_zero_of_rate_lt hf, highSamples_floor_bounds _ q, highSamples_range _, stepSamples_floor_bounds _,
    Nat.div_eq_of_lt⟩

end Sys2Proof.Machine
end

section
/-! 41_pulse.md: PULSE.FRAME (R123 to R125), the span of an enabled block (R128) and the frozen counter of a disabled one
(R127). -/

namespace Sys2Proof.Machine

/-! ## One frame -/

/-- The counter that a frame is played at never exceeds the period. -/
theorem pulseWrap_le (p c : Nat) : pulseWrap p c ≤ p := by
  unfold pulseWrap
  split <;> omega

/-- PULSE.FRAME plays the counter after the wrap test and leaves the one above it. -/
theorem pulseFrame_eq (p : Nat) (h : Int) (g : PulseGen) :
    pulseFrame p h g = (if (pulseWrap p g.c : Int) < h then -1 else 1, { g with c := pulseWrap p g.c + 1 }) := by
  simp only [pulseFrame, signFactor, decide_eq_true_eq]

/-- Settles O23: `pulseFrame_eq`, with the counter bounded by `pulseWrap_le` and by the sample rate through
`period_le_rate`. -/
theorem pulseFrameRule : Obligations.PulseFrameRule := by
  intro p h g c hc
  obtain rfl : c = pulseWrap p g.c := hc
  have hle := pulseWrap_le p g.c
  rw [pulseFrame_eq]
  refine ⟨rfl, rfl, Nat.le_add_left 1 _, Nat.succ_le_succ hle, ?_⟩
  rintro r f hf rfl
  exact Nat.succ_le_succ (hle.trans (period_le_rate hf))

/-! ## One block, from the state it starts in -/

theorem enabledOf_eq_true_iff {v : Sample} : enabledOf v = true ↔ v > 1 / 2 := decide_eq_true_iff

section
variable {F : Nat} {d : Slice} {s : State}

/-- The frame loop that an enabled RENDER.P runs. -/
def pulseBlock (F : Nat) (d : Slice) (s : State) : PulseGen × Memory :=
  renderLoop (s.pg.enter.frameOf s.sampleRate) s.pg.P.gain F d.base s.pg.enter s.dst

theorem exec_renderP_enabled (hl : s.pg.live = true) (hF : F ≤ d.len) (ht : s.pg.P.trigger > 1 / 2)
    (hf : 0 < s.pg.P.frequency) :
    exec (.renderP F d) s = .next ((s.setPg (pulseBlock F d s).1).setDst (pulseBlock F d s).2) :=
  execRenderP_next_iff.2 ⟨hl, hF, .inr ⟨enabledOf_eq_true_iff.2 ht, hf, _, _, rfl, rfl⟩⟩

theorem exec_renderP_disabled (hl : s.pg.live = true) (hF : F ≤ d.len) (ht : s.pg.P.trigger ≤ 1 / 2) :
    exec (.renderP F d) s = .next (s.setPg s.pg.enter) :=
  execRenderP_next_iff.2
    ⟨hl, hF, .inl ⟨Bool.eq_false_iff.2 (mt enabledOf_eq_true_iff.1 (not_lt.2 ht)), rfl⟩⟩

/-- A RENDER.P reads its generator only as SNAP and the enable test leave it. -/
theorem exec_renderP_setPg {g : PulseGen} (h : g.enter = s.pg.enter) :
    exec (.renderP F d) (s.setPg g) = exec (.renderP F d) s := by
  have hl : g.live = s.pg.live := (congrArg PulseGen.live h :)
  show execRenderP F d (s.setPg g) = execRenderP F d s
  unfold execRenderP renderBlock whenLive State.live
  simp only [State.setPg_pg, State.setPg_sampleRate, State.setPg_dst, h, hl]
  rfl

end

/-! ## The span of an enabled block -/

/-- A sign factor scaled by the gain is the gain with that sign. -/
theorem mix_sign (c : Prop) [Decidable c] (gain : Sample) :
    mix (if c then -1 else 1) gain = if c then -gain else gain := by
  split <;> simp

section
variable {F : Nat} {d : Slice} {s : State} {p : Nat} (hp : p = period s.sampleRate s.pg.P.frequency)
include hp

/-- The sample of frame `n` of an enabled block (`pulse_factor`). -/
theorem pulseBlock_read {h : Int} (hh : h = highSamples p s.pg.P.dutyCycle) (hm : Memory.wf s.dst)
    {n : Nat} (hn : n < F) :
    Memory.read (pulseBlock F d s).2 (d.base + n) =
      if (((pulseWrap p s.pg.c + n) % (p + 1) : Nat) : Int) < h then -s.pg.P.gain else s.pg.P.gain := by
  have hframe : s.pg.enter.frameOf s.sampleRate = pulseFrame p h := by
    rw [hh, hp]
    rfl
  rw [pulseBlock, renderLoop_read _ _ _ _ _ hm hn, hframe, pulse_factor, mix_sign]
  rfl

/-- The phase counter after an enabled block (`pulse_iterate`). -/
theorem pulseBlock_counter :
    (pulseBlock F d s).1.c = if F = 0 then s.pg.c else (pulseWrap p s.pg.c + (F - 1)) % (p + 1) + 1 := by
  subst hp
  cases F with
  | zero => rfl
  | succ n =>
    exact congrArg PulseGen.c ((renderLoop_gen _ _ (n + 1) d.base _ _).trans (pulse_iterate _ _ s.pg.enter n))

end

/-- Settles O24: an enabled block is `pulseBlock`, whose samples and counter follow from the iterated frame. -/
theorem pulseSpan : Obligations.PulseSpan := by
  intro F d s p e h hl hF hm _ ht hf hp hh he
  obtain rfl : e = pulseWrap p s.pg.c := he
  exact ⟨_, exec_renderP_enabled hl hF ht hf, fun n hn => pulseBlock_read hp hh hm hn, pulseBlock_counter hp⟩

/-! ## The frozen counter of a disabled block -/

theorem exec_setpPTrigger {v : Sample} {s : State} (hl : s.pg.live = true) :
    exec (.setpPTrigger v) s = .next (parWrite s .pTrigger v) :=
  (exec_setp_next_iff (r := .pTrigger) rfl).2 ⟨hl, rfl⟩

/-- Settles O25: a disabled block stores the entered generator alone, and a RENDER.P after the next trigger enters its
generator again, to the same effect (`exec_renderP_setPg`). -/
theorem disabledPulseFrozen : Obligations.DisabledPulseFrozen := by
  intro F d s hl hF _ ht
  refine ⟨_, exec_renderP_disabled hl hF ht, rfl, rfl, rfl, rfl, fun v F' d' _ => ?_⟩
  rw [exec_setpPTrigger hl, exec_setpPTrigger (s := s.setPg s.pg.enter) hl]
  exact exec_renderP_setPg (s := parWrite s .pTrigger v) rfl

end Sys2Proof.Machine
end

section
/-! 42_wavetable.md: WAVE.FRAME (R146 to R148), and the replacement of the table by itself (R157). -/

namespace Sys2Proof.Machine

/-! ## One frame -/

section
variable {p : Nat} {g : WaveGen}

/-- Above the threshold the step index advances, and the next entry plays (42_wavetable.md R146). -/
theorem waveFrame_of_gt (h : g.sampleCounter > p) :
    waveFrame p g = (amplitude (g.table.get (g.stepIndex + 1)),
      { g with sampleCounter := 0 + 1, stepIndex := g.stepIndex + 1 }) := by
  simp only [waveFrame, if_pos h]

/-- Up to the threshold, itself included, the entry at the step index plays again (42_wavetable.md R146). -/
theorem waveFrame_of_le (h : g.sampleCounter ≤ p) :
    waveFrame p g = (amplitude (g.table.get g.stepIndex), { g with sampleCounter := g.sampleCounter + 1 }) := by
  simp only [waveFrame, if_neg (Nat.not_lt.2 h)]

end

/-- Settles O26: the two sides of the wrap test; the advance is the addition of `Fin 32`. -/
theorem waveFrameRule : Obligations.WaveFrameRule := fun _ _ =>
  ⟨waveFrame_of_gt, waveFrame_of_le, fun k => Fin.val_add k 1⟩

/-! ## Replacing the table by itself -/

@[simp] theorem tableToPlay_post (w : WaveGen) (table : Wavetable) : tableToPlay (w.post table) = table := rfl

/-- Posting the table that the next SWAP leaves active anyway is lost on that SWAP. -/
theorem WaveGen.enter_post_tableToPlay (w : WaveGen) : (w.post (tableToPlay w)).enter = w.enter := by
  simp [WaveGen.enter, WaveGen.swap_eq, WaveGen.post, tableToPlay]

section
variable {F : Nat} {d : Slice} {c : Vector Nat 32} {s t : State}

/-- The table a RENDER.W plays is active, with the mailbox empty, when it is done: it is the table to play next. -/
theorem exec_renderW_tableToPlay (h : exec (.renderW F d) s = .next t) : tableToPlay t.wg = tableToPlay s.wg := by
  obtain ⟨-, -, k, i, m, rfl, -⟩ := execRenderW_frame h
  simp [tableToPlay]

/-- A RENDER.W reads its generator only as SNAP, SWAP and the enable test leave it. -/
theorem exec_renderW_setWg {g : WaveGen} (h : g.enter = s.wg.enter) :
    exec (.renderW F d) (s.setWg g) = exec (.renderW F d) s := by
  have hl : g.live = s.wg.live := by rw [← WaveGen.enter_live g, h, WaveGen.enter_live]
  show execRenderW F d (s.setWg g) = execRenderW F d s
  unfold execRenderW renderBlock whenLive State.live
  simp only [State.setWg_wg, State.setWg_sampleRate, State.setWg_dst, h, hl]
  rfl

theorem exec_renderW_live (h : exec (.renderW F d) s = .next t) : t.wg.live = true := by
  obtain ⟨hl, -, k, i, m, rfl, -⟩ := execRenderW_frame h
  simpa using hl

/-- Posting the table that plays next is lost on the next RENDER.W. -/
theorem exec_renderW_post_tableToPlay :
    exec (.renderW F d) (s.setWg (s.wg.post (tableToPlay s.wg))) = exec (.renderW F d) s :=
  exec_renderW_setWg (WaveGen.enter_post_tableToPlay s.wg)

theorem exec_wpost_of_live (hl : s.wg.live = true) (hc : codesFit c = true) :
    exec (.wpost c) s = .next (s.setWg (s.wg.post (tableOfCodes c))) :=
  execWpost_next_iff.2 ⟨hl, hc, rfl⟩

/-- A WPOST issued again finds its table in the mailbox already. -/
theorem exec_wpost_again (h : exec (.wpost c) s = .next t) : exec (.wpost c) t = .next t := by
  obtain ⟨hl, hc, rfl⟩ := execWpost_next_iff.1 h
  exact exec_wpost_of_live hl hc

theorem andThen_next (s : State) (k : State → Result) : andThen (.next s) k = k s := rfl

end

/-- Settles O31: before a SWAP by `exec_wpost_again`; after it the table posted is the one that plays next
(`exec_renderW_tableToPlay`), so that its second POST is lost (`exec_renderW_post_tableToPlay`). -/
theorem replacementIdempotent : Obligations.ReplacementIdempotent := by
  refine ⟨fun c s => ?_, fun c s t m n d e hl hc _ h => ?_⟩
  · cases hpost : exec (.wpost c) s with
    | next u => exact exec_wpost_again hpost
    | fault e => rfl
    | refused e => rfl
  · rw [exec_wpost_of_live hl hc, andThen_next] at h
    have hplays : tableToPlay t.wg = tableOfCodes c := exec_renderW_tableToPlay h
    rw [exec_wpost_of_live (exec_renderW_live h) hc, andThen_next, ← hplays]
    exact exec_renderW_post_tableToPlay

end Sys2Proof.Machine
end

section
/-! 43_noise.md: the feedback bit (R174) and LFSR.TICK in long mode (R175). -/

namespace Sys2Proof.Machine

variable {x : ShiftReg} {i : Nat}

theorem feedback_iff : feedback x = true ↔ x.getLsbD 0 = x.getLsbD 1 := beq_iff_eq

/-- The feedback is the XNOR of the two lowest bits (43_noise.md R174). -/
theorem feedback_eq_not_xor (x : ShiftReg) : feedback x = !(x.getLsbD 0 ^^ x.getLsbD 1) :=
  (Bool.not_not (x.getLsbD 0 == x.getLsbD 1)).symm

theorem tickLong_getLsbD_top (x : ShiftReg) : (tickLong x).getLsbD 14 = feedback x := by
  rw [tickLong_getLsbD, if_pos rfl]

theorem tickLong_getLsbD_of_lt (hi : i < 14) : (tickLong x).getLsbD i = x.getLsbD (i + 1) := by
  rw [tickLong_getLsbD, if_neg (Nat.ne_of_lt hi), decide_eq_true hi, Bool.and_true]

/-- As an integer, the long tick is the register shifted right by one with the feedback put into the high bit
(43_noise.md R175). -/
theorem tickLong_eq_shift_or (x : ShiftReg) :
    tickLong x = (x >>> 1) ||| ((BitVec.ofBool (feedback x)).setWidth 15 <<< 14) := by
  refine BitVec.eq_of_getLsbD_eq fun i hi => ?_
  rw [BitVec.getLsbD_or, BitVec.getLsbD_ushiftRight, BitVec.getLsbD_shiftLeft]
  rcases Nat.lt_succ_iff_lt_or_eq.1 hi with hlow | rfl
  · rw [tickLong_getLsbD_of_lt hlow]
    simp [hlow, Nat.add_comm]
  · rw [tickLong_getLsbD_top]
    simp

/-- Settles O40: the bits of the tick are `tickLong_getLsbD`, from which the integer form follows bit by bit. -/
theorem longTickRule : Obligations.LongTickRule := fun x =>
  ⟨feedback_iff, feedback_eq_not_xor x, tickLong_getLsbD_top x, fun _ => tickLong_getLsbD_of_lt,
    tickLong_eq_shift_or x⟩

end Sys2Proof.Machine
end

section
/-! 44_control_system.md: the SETP forms of the triggers and of the wavetable and noise gains (R206, R210, R211, R213,
R214).

What R206 to R216 share is said once, for any SETP: its command decodes to it (`decode_encode`), on a live generator it is
the write of its register (`exec_setp_of_live`), and its legal values are those of that register (`legalInstr_setp_iff`). -/

namespace Sys2Proof.Machine

/-- The byte of 30_encoding.md R86, with the operands of R85 beside it, decodes to its operation. -/
theorem decode_encode (i : Instr) : decode (encode i) = .ok i := by
  cases i <;> simp [decode, encode, Instr.byte, Instr.operands, legalByte, opcField, chField, pField]

section
variable {i : Instr} {r : ParReg} {v : Sample} {s : State} (hi : setpTarget i = some (r, v))
include hi

theorem exec_setp_of_live (hl : s.live r.channel = true) : exec i s = .next (parWrite s r v) :=
  (exec_setp_next_iff hi).2 ⟨hl, rfl⟩

theorem legalInstr_setp_iff : legalInstr i = true ↔ r.legal v = true := by
  have hw : i.wellFormed = true := by
    cases i <;> simp only [setpTarget, reduceCtorEq] at hi <;> rfl
  unfold legalInstr
  simp only [hw, hi, Bool.true_and]

end

/-- Settles O11: each of the four is a SETP, whose register gives the write and the legal values. -/
theorem triggerAndGainSetpRules : Obligations.TriggerAndGainSetpRules := by
  intro v s
  exact ⟨⟨decode_encode (.setpWTrigger v), exec_setp_of_live (r := .wTrigger) rfl,
      (legalInstr_setp_iff (r := .wTrigger) rfl).trans decide_eq_true_iff⟩,
    ⟨decode_encode (.setpWGain v), exec_setp_of_live (r := .wGain) rfl,
      (legalInstr_setp_iff (r := .wGain) rfl).trans decide_eq_true_iff⟩,
    ⟨decode_encode (.setpNTrigger v), exec_setp_of_live (r := .nTrigger) rfl,
      (legalInstr_setp_iff (r := .nTrigger) rfl).trans decide_eq_true_iff⟩,
    ⟨decode_encode (.setpNGain v), exec_setp_of_live (r := .nGain) rfl,
      (legalInstr_setp_iff (r := .nGain) rfl).trans decide_eq_true_iff⟩⟩

/-- Settles O12: a SETP of the trigger register, whose value the enable test of the next RENDER.P reads
(`exec_renderOf_enableFlag`). -/
theorem pulseTriggerSetpRule : Obligations.PulseTriggerSetpRule := fun v _ hl =>
  ⟨decode_encode (.setpPTrigger v), (legalInstr_setp_iff (r := .pTrigger) rfl).trans decide_eq_true_iff,
    exec_setpPTrigger hl, fun _ _ _ _ h => exec_renderOf_enableFlag (g := .pulse) h⟩

end Sys2Proof.Machine
end

section
/-! 44_control_system.md: WPOST (R219), with the amplitudes that an enabled RENDER.W plays (42_wavetable.md R155). -/

namespace Sys2Proof.Machine

/-- A code that fits is the table's entry as it stands: nothing is masked (30_encoding.md R80, R89). -/
theorem tableOfCodes_get_toNat {c : Vector Nat 32} {k : Fin 32} (h : c.get k ≤ 15) :
    ((tableOfCodes c).get k).toNat = c.get k := by
  rw [tableOfCodes_get, BitVec.toNat_ofNat]
  exact Nat.mod_eq_of_lt (Nat.lt_succ_of_le h)

theorem exec_wload_of_live {w : Vector PackedWord 8} {s : State} (hl : s.wg.live = true) :
    exec (.wload w) s = .next (s.setWg (s.wg.post (unpack w))) :=
  execWload_next_iff.2 ⟨hl, rfl⟩

/-- Every sample of an enabled block is the amplitude of some entry of the table to play, scaled by the gain. -/
theorem exec_renderW_read {F : Nat} {d : Slice} {s t : State} (h : exec (.renderW F d) s = .next t)
    (hm : Memory.wf s.dst) (ht : s.wg.P.trigger > 1 / 2) {n : Nat} (hn : n < F) :
    ∃ k, Memory.read t.dst (d.base + n) = amplitude ((tableToPlay s.wg).get k) * s.wg.P.gain := by
  obtain ⟨-, -, ⟨hoff, -⟩ | ⟨-, -, g, m, hgm, rfl⟩⟩ := execRenderW_next_iff.1 h
  · rw [WaveGen.enter_enabled, enabledOf_eq_true_iff.2 ht] at hoff
    cases hoff
  · obtain rfl : m = _ := congrArg Prod.snd hgm
    rw [State.setDst_dst, renderLoop_read _ _ _ _ _ hm hn, mix_eq, WaveGen.frameOf, wave_factor, WaveGen.enter_table]
    exact ⟨_, rfl⟩

/-- Thirty-two codes 15 make a table of amplitude `-1` throughout (30_encoding.md R78). -/
theorem amplitude_tableOfCodes_fifteen (k : Fin 32) :
    amplitude ((tableOfCodes (Vector.replicate 32 15)).get k) = -1 := by
  have hcode : (Vector.replicate 32 15).get k = 15 := Vector.getElem_replicate k.isLt
  rw [tableOfCodes_get, hcode, amplitude_ofNat (by decide)]
  norm_num

/-- Settles O34: the table posted is `tableOfCodes c`, whose entries are the codes (`tableOfCodes_get_toNat`); WLOAD posts
too; and in the example the table posted is the one that plays, at amplitude `-1` throughout (`exec_renderW_read`,
`amplitude_tableOfCodes_fifteen`). -/
theorem wpostRule : Obligations.WpostRule := by
  intro c s
  refine ⟨decode_encode (.wpost c), rfl, fun hl hc => ?_, ?_⟩
  · have hpost := exec_wpost_of_live hl (codesFit_iff.2 hc)
    refine ⟨tableOfCodes c, fun k => tableOfCodes_get_toNat (hc k), hpost, fun w hw => ?_⟩
    rw [exec_wload_of_live hl, hw, hpost]
  · rintro F d t u rfl hpost hm _ ht h n hn
    obtain ⟨-, -, rfl⟩ := execWpost_next_iff.1 hpost
    obtain ⟨k, hk⟩ := exec_renderW_read h hm ht hn
    rw [hk, State.setWg_wg, tableToPlay_post, amplitude_tableOfCodes_fifteen]
    exact neg_one_mul _

end Sys2Proof.Machine
end

section
/-! 70_reset_and_hazards.md: nothing survives from one session of a generator to the next (R251).

A DESTROY always leaves a generator on which CREATE completes, and a CREATE stores a generator that depends on nothing of
the state it acts on. -/

namespace Sys2Proof.Machine

variable {g : Channel} {s s0 u u0 : State}

/-- DESTROY of a live generator completes and ends its session (44_control_system.md R203 to R205). -/
theorem exec_destroyOf_of_live (h : s.live g = true) : ∃ t, exec (destroyOf g) s = .next t ∧ t.live g = false := by
  cases g with
  | pulse => exact ⟨_, execDestroyP_next_iff.2 ⟨h, rfl⟩, rfl⟩
  | wave => exact ⟨_, execDestroyW_next_iff.2 ⟨h, rfl⟩, rfl⟩
  | noise => exact ⟨_, execDestroyN_next_iff.2 ⟨h, rfl⟩, rfl⟩

/-- CREATE of a generator that is not live completes (44_control_system.md R200 to R202). -/
theorem exec_createOf_of_not_live (h : s.live g = false) : ∃ u, exec (createOf g) s = .next u := by
  cases g with
  | pulse => exact ⟨_, execCreateP_next_iff.2 ⟨h, rfl⟩⟩
  | wave => exact ⟨_, execCreateW_next_iff.2 ⟨h, rfl⟩⟩
  | noise => exact ⟨_, execCreateN_next_iff.2 ⟨h, rfl⟩⟩

/-- Any two CREATEs of a kind make the same generator, whatever the states they act on. -/
theorem sameGen_of_exec_createOf (h0 : exec (createOf g) s0 = .next u0) (h : exec (createOf g) s = .next u) :
    sameGen g u0 u := by
  cases g with
  | pulse =>
    obtain ⟨-, rfl⟩ := execCreateP_next_iff.1 h0
    obtain ⟨-, rfl⟩ := execCreateP_next_iff.1 h
    rfl
  | wave =>
    obtain ⟨-, rfl⟩ := execCreateW_next_iff.1 h0
    obtain ⟨-, rfl⟩ := execCreateW_next_iff.1 h
    rfl
  | noise =>
    obtain ⟨-, rfl⟩ := execCreateN_next_iff.1 h0
    obtain ⟨-, rfl⟩ := execCreateN_next_iff.1 h
    rfl

/-- Settles O8: the DESTROY leaves a generator that is not live, so both CREATEs complete, and they make the same generator
(`sameGen_of_exec_createOf`). -/
theorem recreatedIsNew : Obligations.RecreatedIsNew := by
  intro g s s0 hl hn
  obtain ⟨t, ht, htl⟩ := exec_destroyOf_of_live hl
  obtain ⟨u, hu⟩ := exec_createOf_of_not_live htl
  obtain ⟨u0, hu0⟩ := exec_createOf_of_not_live hn
  exact ⟨t, u, u0, ht, hu, hu0, sameGen_of_exec_createOf hu0 hu⟩

end Sys2Proof.Machine
end

section
/-! 30_encoding.md: decode and encode agree (R86, R91), the illegal bytes (R87), and the step as the host issues commands
(10_state.md R20, R22). -/

namespace Sys2Proof.Machine

/-- No byte stands twice in the opcode map (30_encoding.md R86), so that a command byte can name its operation.
An example is elaborated in place, and this evaluation waits until all that stands above is checked: without it the proofs
below would start meanwhile, and a compile of the joined text would need a thread, with its stack, for each that waits. -/
example : opcodeMap.Nodup := by decide +kernel

/-- A command byte is its three fields (30_encoding.md R81). -/
theorem byte_toNat_eq_fields (b : BitVec 8) : b.toNat = 16 * opcField b + 4 * chField b + pField b := by
  have hb := b.isLt
  simp only [opcField, chField, pField, BitVec.extractLsb'_toNat, Nat.shiftRight_eq_div_pow]
  omega

theorem byte_eq_of_fields {b b' : BitVec 8} (ho : opcField b = opcField b') (hc : chField b = chField b')
    (hp : pField b = pField b') : b = b' := by
  apply BitVec.eq_of_toNat_eq
  rw [byte_toNat_eq_fields b, byte_toNat_eq_fields b', ho, hc, hp]

theorem encode_of_decode_eq_ok {c : Command} {i : Instr} (h : decode c = .ok i) : c = encode i := by
  obtain ⟨b, ops⟩ := c
  unfold decode at h
  split at h
  · cases h
  · dsimp only at h
    split at h <;> cases h <;> dsimp only [encode, Instr.byte, Instr.operands] <;> rename_i ho hc hp _ <;>
      exact congrArg (Command.mk · _) (byte_eq_of_fields ho hc hp)

/-- Settles O2: a decoded command has the three fields of its operation's byte (`encode_of_decode_eq_ok`), and every encoded
operation decodes to itself (`decode_encode`). -/
theorem decodeEncodeAgree : Obligations.DecodeEncodeAgree := fun _ i =>
  ⟨encode_of_decode_eq_ok, fun h => h ▸ decode_encode i⟩

/-- Settles O1: six of the words are encoded operations (`decode_encode`); the seventh has the field `p = 3`, which the
wavetable generator lacks. -/
theorem specWordsDecode : Obligations.SpecWordsDecode :=
  ⟨decode_encode .createP, decode_encode .destroyN, decode_encode (.setpNWidth (1 / 2)),
    decode_encode (.renderW 8 ⟨0, 8⟩), decode_encode (.wload (Vector.replicate 8 0xF00F)),
    decode_encode (.wpost (Vector.replicate 32 15)), rfl⟩

theorem decode_of_byte_not_mem {c : Command} (h : c.byte ∉ opcodeMap) : decode c = .error (.illegalCommand c.byte) := by
  have hlegal : legalByte c.byte = false := by
    rw [Laws.legalByte_iff_mem]
    simpa using h
  unfold decode
  rw [hlegal]
  rfl

/-- Settles O4: the branch of `step_eq` for a command that decodes. -/
theorem stepRunsDecoded : Obligations.StepRunsDecoded := by
  intro s c rest i hp hd
  rw [step_eq, hp]
  simp only [hd]

/-- Settles O3: the branch of `step_eq` for a command that does not decode. -/
theorem illegalBytesRefused : Obligations.IllegalBytesRefused := by
  intro s c rest hp hb
  rw [step_eq, hp]
  simp only [decode_of_byte_not_mem hb, refusalOf]

/-- Settles O5: the branch of `step_eq` for an empty queue. -/
theorem nothingIssuedNothingChanges : Obligations.NothingIssuedNothingChanges := by
  intro s hp
  rw [step_eq, hp]

end Sys2Proof.Machine
end

section
/-! 40_block_datapath.md: every RENDER is one block of frames (R100, R104), and what follows for any generator.

A RENDER that completes leaves `State.block`: the generator entered (SNAP, SWAP, enable test) and then a number of frames, all
`F` of them where the trigger enables it and none where it does not. -/

namespace Sys2Proof.Machine

/-! ## The block of a RENDER -/

/-- The state that `n` frames of the generator `g`, written from address `a` on, leave (40_block_datapath.md R100, R104). -/
def State.block (g : Channel) (n a : Nat) (s : State) : State :=
  match g with
  | .pulse =>
    let b := renderLoop (s.pg.enter.frameOf s.sampleRate) s.pg.P.gain n a s.pg.enter s.dst
    (s.setPg b.1).setDst b.2
  | .wave =>
    let b := renderLoop (s.wg.enter.frameOf s.sampleRate) s.wg.P.gain n a s.wg.enter s.dst
    (s.setWg b.1).setDst b.2
  | .noise =>
    let b := renderLoop (s.ng.enter.frameOf s.sampleRate) s.ng.P.gain n a s.ng.enter s.dst
    (s.setNg b.1).setDst b.2

/-- The number of frames that a RENDER of `F` frames runs (40_block_datapath.md R103). -/
def State.framesRun (s : State) (g : Channel) (F : Nat) : Nat := if enabledOf (triggerOf s g) then F else 0

/-- A frequency of which a RENDER takes no harm: positive, where the trigger enables the generator (60_exceptions.md R228). -/
def State.frequencyFit (s : State) (g : Channel) : Prop := triggerOf s g > 1 / 2 → 0 < frequencyOf s g

/-- The two ways in which the frames of a block answer are one, by the number of frames run. -/
theorem frames_answer_iff {γ : Type} {on : Bool} {P : Prop} {F : Nat} {t : State} (loop : Nat → γ × Memory)
    (put : γ → Memory → State) :
    (on = false ∧ t = put (loop 0).1 (loop 0).2 ∨ on = true ∧ P ∧ ∃ g m, (g, m) = loop F ∧ t = put g m) ↔
      (on = true → P) ∧ t = put (loop (if on then F else 0)).1 (loop (if on then F else 0)).2 := by
  cases on with
  | false => simp
  | true =>
    simp only [Bool.true_eq_false, false_and, false_or, true_and, forall_const, if_true]
    refine and_congr_right fun _ => ⟨?_, fun h => ⟨_, _, rfl, h⟩⟩
    rintro ⟨g, m, h, rfl⟩
    rw [← h]

section
variable {g : Channel} {F : Nat} {d : Slice} {s t : State}

/-- Every RENDER, said once. -/
theorem exec_renderOf_next_iff : exec (renderOf g F d) s = .next t ↔
    s.live g = true ∧ F ≤ d.len ∧ s.frequencyFit g ∧ t = s.block g (s.framesRun g F) d.base := by
  unfold State.frequencyFit
  rw [← enabledOf_eq_true_iff]
  cases g with
  | pulse =>
    exact execRenderP_next_iff.trans (and_congr_right fun _ => and_congr_right fun _ =>
      frames_answer_iff (renderLoop (s.pg.enter.frameOf s.sampleRate) s.pg.P.gain · d.base s.pg.enter s.dst)
        fun b m => (s.setPg b).setDst m)
  | wave =>
    refine execRenderW_next_iff.trans (and_congr_right fun _ => and_congr_right fun _ => ?_)
    rw [WaveGen.enter_enabled]
    exact frames_answer_iff (renderLoop (s.wg.enter.frameOf s.sampleRate) s.wg.P.gain · d.base s.wg.enter s.dst)
      fun b m => (s.setWg b).setDst m
  | noise =>
    refine execRenderN_next_iff.trans (and_congr_right fun _ => and_congr_right fun _ => ?_)
    rw [show s.ng.enter.enabled = enabledOf s.ng.P.trigger by rw [NoiseGen.enter_eq]]
    exact frames_answer_iff (renderLoop (s.ng.enter.frameOf s.sampleRate) s.ng.P.gain · d.base s.ng.enter s.dst)
      fun b m => (s.setNg b).setDst m

theorem exec_renderOf_completes (hl : s.live g = true) (hF : F ≤ d.len) (hf : s.frequencyFit g) :
    exec (renderOf g F d) s = .next (s.block g (s.framesRun g F) d.base) :=
  exec_renderOf_next_iff.2 ⟨hl, hF, hf, rfl⟩

theorem State.framesRun_of_enabled (h : triggerOf s g > 1 / 2) : s.framesRun g F = F :=
  if_pos (enabledOf_eq_true_iff.2 h)

theorem State.framesRun_of_disabled (h : triggerOf s g ≤ 1 / 2) : s.framesRun g F = 0 :=
  if_neg (mt enabledOf_eq_true_iff.1 (not_lt.2 h))

theorem State.frequencyFit_of_disabled (h : triggerOf s g ≤ 1 / 2) : s.frequencyFit g := fun hon =>
  absurd hon (not_lt.2 h)

theorem exec_renderOf_enabled (hl : s.live g = true) (hF : F ≤ d.len) (ht : triggerOf s g > 1 / 2)
    (hf : 0 < frequencyOf s g) : exec (renderOf g F d) s = .next (s.block g F d.base) := by
  rw [exec_renderOf_completes hl hF fun _ => hf, State.framesRun_of_enabled ht]

/-- A disabled RENDER is a block of no frames. -/
theorem exec_renderOf_disabled (hl : s.live g = true) (hF : F ≤ d.len) (ht : triggerOf s g ≤ 1 / 2) :
    exec (renderOf g F d) s = .next (s.block g 0 d.base) := by
  rw [exec_renderOf_completes hl hF (State.frequencyFit_of_disabled ht), State.framesRun_of_disabled ht]

end

/-! ## What a block leaves of each generator -/

section
variable (s : State) (g : Channel) (n a : Nat)

@[simp] theorem NoiseGen.enter_P (g : NoiseGen) : g.enter.P = g.P := by rw [NoiseGen.enter_eq]
@[simp] theorem NoiseGen.enter_S (g : NoiseGen) : g.enter.S = g.P := by rw [NoiseGen.enter_eq]
@[simp] theorem NoiseGen.enter_live (g : NoiseGen) : g.enter.live = g.live := by rw [NoiseGen.enter_eq]
@[simp] theorem NoiseGen.enter_enabled (g : NoiseGen) : g.enter.enabled = enabledOf g.P.trigger := by
  rw [NoiseGen.enter_eq]
@[simp] theorem NoiseGen.enter_c (g : NoiseGen) : g.enter.c = g.c := by rw [NoiseGen.enter_eq]
@[simp] theorem NoiseGen.enter_lfsr (g : NoiseGen) : g.enter.lfsr = g.lfsr := by rw [NoiseGen.enter_eq]

@[simp] theorem State.block_sampleRate : (s.block g n a).sampleRate = s.sampleRate := by cases g <;> rfl
@[simp] theorem State.block_pending : (s.block g n a).pending = s.pending := by cases g <;> rfl

theorem State.block_zero_base (b : Nat) : s.block g 0 a = s.block g 0 b := by cases g <;> rfl
@[simp] theorem State.block_zero_dst : (s.block g 0 a).dst = s.dst := by cases g <;> rfl
@[simp] theorem State.block_zero_pg : (s.block .pulse 0 a).pg = s.pg.enter := rfl
@[simp] theorem State.block_zero_wg : (s.block .wave 0 a).wg = s.wg.enter := rfl
@[simp] theorem State.block_zero_ng : (s.block .noise 0 a).ng = s.ng.enter := rfl

/-- A block leaves of its own generator the entered one, but for what its frames count. -/
theorem State.block_pg : ∃ c, (s.block .pulse n a).pg = { s.pg.enter with c := c } := by
  obtain ⟨c, hc⟩ := pulse_iterate_c (period s.sampleRate s.pg.P.frequency)
    (highSamples (period s.sampleRate s.pg.P.frequency) s.pg.P.dutyCycle) n s.pg.enter
  exact ⟨c, (renderLoop_gen _ _ n a _ _).trans hc⟩

theorem State.block_wg : ∃ c k, (s.block .wave n a).wg = { s.wg.enter with sampleCounter := c, stepIndex := k } := by
  obtain ⟨c, k, hck⟩ := wave_iterate_counters (stepSamples (period s.sampleRate s.wg.enter.S.frequency)) n s.wg.enter
  exact ⟨c, k, (renderLoop_gen _ _ n a _ _).trans hck⟩

theorem State.block_ng : ∃ c x, (s.block .noise n a).ng = { s.ng.enter with c := c, lfsr := x } := by
  obtain ⟨c, x, hcx⟩ := noise_iterate_counters (period s.sampleRate s.ng.enter.S.frequency)
    (shortOf s.ng.enter.S.width) n s.ng.enter
  exact ⟨c, x, (renderLoop_gen _ _ n a _ _).trans hcx⟩

theorem State.block_sameParams : sameParams g s (s.block g n a) := by
  cases g with
  | pulse => obtain ⟨c, hc⟩ := s.block_pg n a; simp [sameParams, hc, PulseGen.enter]
  | wave => obtain ⟨c, k, hck⟩ := s.block_wg n a; simp [sameParams, hck]
  | noise => obtain ⟨c, x, hcx⟩ := s.block_ng n a; simp [sameParams, hcx]

@[simp] theorem State.block_live : (s.block g n a).live g = s.live g := by
  cases g with
  | pulse => obtain ⟨c, hc⟩ := s.block_pg n a; simp [State.live, hc, PulseGen.enter]
  | wave => obtain ⟨c, k, hck⟩ := s.block_wg n a; simp [State.live, hck]
  | noise => obtain ⟨c, x, hcx⟩ := s.block_ng n a; simp [State.live, hcx]

/-- The generator that a block leaves is an entered one. -/
theorem State.block_pg_enter : (s.block .pulse n a).pg.enter = (s.block .pulse n a).pg := by
  obtain ⟨c, hc⟩ := s.block_pg n a
  rw [hc]
  rfl

theorem State.block_wg_enter : (s.block .wave n a).wg.enter = (s.block .wave n a).wg := by
  obtain ⟨c, k, hck⟩ := s.block_wg n a
  rw [hck]
  exact WaveGen.enter_idem (by simp) (by simp) (by simp)

theorem State.block_ng_enter : (s.block .noise n a).ng.enter = (s.block .noise n a).ng := by
  obtain ⟨c, x, hcx⟩ := s.block_ng n a
  rw [hcx]
  exact NoiseGen.enter_idem (by simp) (by simp)

/-- A frame loop that goes on with the generator and the memory that `m` frames left (`renderLoop_add`). -/
theorem renderLoop_resume {γ : Type} {frame frame' : γ → Sample × γ} {gain gain' : Sample} {m : Nat} {g g' : γ}
    {mem : Memory} (hframe : frame' = frame) (hgain : gain' = gain) (hg : g' = (renderLoop frame gain m a g mem).1) :
    renderLoop frame' gain' n (a + m) g' (renderLoop frame gain m a g mem).2 =
      renderLoop frame gain (m + n) a g mem := by
  rw [hframe, hgain, hg]
  exact (renderLoop_add frame gain m n a g mem).symm

/-- A block that follows a block of its generator goes on where that one ended (40_block_datapath.md R115). -/
theorem State.block_add (m : Nat) : (s.block g m a).block g n (a + m) = s.block g (m + n) a := by
  have hP := s.block_sameParams g m a
  cases g with
  | pulse =>
    have hframe : (s.block .pulse m a).pg.enter.frameOf s.sampleRate = s.pg.enter.frameOf s.sampleRate := by
      obtain ⟨c, hc⟩ := s.block_pg m a
      rw [hc]
      rfl
    exact congrArg (fun b => (s.setPg b.1).setDst b.2)
      (renderLoop_resume n a hframe (congrArg PulseParams.gain hP) (s.block_pg_enter m a))
  | wave =>
    have hframe : (s.block .wave m a).wg.enter.frameOf s.sampleRate = s.wg.enter.frameOf s.sampleRate := by
      obtain ⟨c, k, hck⟩ := s.block_wg m a
      rw [s.block_wg_enter, hck]
      rfl
    exact congrArg (fun b => (s.setWg b.1).setDst b.2)
      (renderLoop_resume n a hframe (congrArg WaveParams.gain hP) (s.block_wg_enter m a))
  | noise =>
    have hframe : (s.block .noise m a).ng.enter.frameOf s.sampleRate = s.ng.enter.frameOf s.sampleRate := by
      obtain ⟨c, x, hcx⟩ := s.block_ng m a
      rw [s.block_ng_enter, hcx]
      rfl
    exact congrArg (fun b => (s.setNg b.1).setDst b.2)
      (renderLoop_resume n a hframe (congrArg NoiseParams.gain hP) (s.block_ng_enter m a))

@[simp] theorem State.block_sameGen_other {c : Channel} (h : c ≠ g) : sameGen c s (s.block g n a) := by
  cases g <;> cases c <;> first | exact absurd rfl h | rfl

theorem State.block_wf (h : Memory.wf s.dst) : Memory.wf (s.block g n a).dst := by
  cases g <;> exact renderLoop_wf _ _ _ _ _ h

/-- A block writes its `n` elements and no other (40_block_datapath.md R109). -/
theorem State.block_unchangedOutside : unchangedOutside a n s.dst (s.block g n a).dst := by
  intro x hx
  cases g <;> exact renderLoop_read_outside _ _ _ _ _ _ hx

/-- Element `k` holds a factor in [-1, 1], a sign but for the wavetable, scaled by the gain (40_block_datapath.md R110). -/
theorem State.block_read (h : Memory.wf s.dst) {k : Nat} (hk : k < n) :
    ∃ f, Memory.read (s.block g n a).dst (a + k) = f * gainOf s g ∧ (-1 ≤ f ∧ f ≤ 1) ∧
      (g ≠ .wave → f = -1 ∨ f = 1) := by
  cases g with
  | pulse => exact ⟨_, renderLoop_read _ _ _ _ _ h hk, signFactor_range _, fun _ => signFactor_cases _⟩
  | wave => exact ⟨_, renderLoop_read _ _ _ _ _ h hk, amplitude_range _, fun hg => absurd rfl hg⟩
  | noise => exact ⟨_, renderLoop_read _ _ _ _ _ h hk, signFactor_range _, fun _ => signFactor_cases _⟩

end

/-! ## Blocks of two generators -/

section
variable {g c : Channel} {s t u : State}

theorem sameGen_symm (h : sameGen g s t) : sameGen g t s := by
  cases g <;> exact Eq.symm h

theorem sameGen_trans (h : sameGen g s t) (h' : sameGen g t u) : sameGen g s u := by
  cases g <;> exact Eq.trans h' h

theorem state_eq_of_sameGen (hg : ∀ g, sameGen g s t) (hr : t.sampleRate = s.sampleRate) (hd : t.dst = s.dst)
    (hq : t.pending = s.pending) : t = s := by
  obtain ⟨r, p, w, n, m, q⟩ := t
  obtain rfl : p = s.pg := hg .pulse
  obtain rfl : w = s.wg := hg .wave
  obtain rfl : n = s.ng := hg .noise
  subst hr hd hq
  rfl

theorem triggerOf_congr (h : sameParams g s t) : triggerOf t g = triggerOf s g := by
  cases g <;> simp only [sameParams] at h <;> simp only [triggerOf, h]

theorem frequencyOf_congr (h : sameParams g s t) : frequencyOf t g = frequencyOf s g := by
  cases g <;> simp only [sameParams] at h <;> simp only [frequencyOf, h]

theorem State.framesRun_congr (h : sameParams g s t) (F : Nat) : t.framesRun g F = s.framesRun g F := by
  rw [State.framesRun, State.framesRun, triggerOf_congr h]

theorem State.frequencyFit_congr (h : sameParams g s t) : t.frequencyFit g ↔ s.frequencyFit g := by
  rw [State.frequencyFit, State.frequencyFit, triggerOf_congr h, frequencyOf_congr h]

theorem State.framesRun_le (s : State) (g : Channel) (F : Nat) : s.framesRun g F ≤ F := by
  unfold State.framesRun
  split
  · exact le_refl F
  · exact Nat.zero_le F

/-- What a block leaves of its own generator does not depend on the samples or on another generator. -/
theorem State.block_sameGen_own (h : sameGen g s t) (hr : t.sampleRate = s.sampleRate) (n a : Nat) :
    sameGen g (s.block g n a) (t.block g n a) := by
  cases g <;> simp only [sameGen] at h <;> simp only [sameGen, State.block, h, hr, State.setDst_pg, State.setPg_pg,
    State.setDst_wg, State.setWg_wg, State.setDst_ng, State.setNg_ng] <;> exact renderLoop_gen_memory _ _ _ _ _ _ _

/-- A block of another generator, before or after, makes no difference to what a block leaves of its own. -/
theorem State.block_sameGen_block (h : g ≠ c) (s : State) (m a n b : Nat) :
    sameGen g ((s.block g m a).block c n b) ((s.block c n b).block g m a) :=
  sameGen_trans (sameGen_symm ((s.block g m a).block_sameGen_other c n b h))
    (State.block_sameGen_own (s.block_sameGen_other c n b h) (s.block_sampleRate c n b) m a)

/-- Blocks of two generators into disjoint elements commute (40_block_datapath.md R113). -/
theorem State.block_comm (hgc : g ≠ c) (hm : Memory.wf s.dst) {m n a b : Nat} (hd : a + m ≤ b ∨ b + n ≤ a) :
    (s.block c n b).block g m a = (s.block g m a).block c n b := by
  refine state_eq_of_sameGen (fun e => ?_) (by simp) ?_ (by simp)
  · rcases eq_or_ne e g with rfl | heg
    · exact s.block_sameGen_block hgc m a n b
    · rcases eq_or_ne e c with rfl | hec
      · exact sameGen_symm (s.block_sameGen_block hgc.symm n b m a)
      · exact sameGen_trans
          (sameGen_symm (sameGen_trans (s.block_sameGen_other g m a heg) (State.block_sameGen_other _ c n b hec)))
          (sameGen_trans (s.block_sameGen_other c n b hec) (State.block_sameGen_other _ g m a heg))
  · cases g <;> cases c <;> first
      | exact absurd rfl hgc
      | exact renderLoop_comm _ _ _ _ _ _ _ _ _ _ _ hm hd

end

/-! ## The statements about every RENDER -/

/-- Settles O14: `exec_renderOf_params` at each generator. -/
theorem renderLatchesParameters : Obligations.RenderLatchesParameters := fun _ _ _ _ =>
  ⟨fun _ h => exec_renderOf_params (g := .pulse) h, fun _ h => exec_renderOf_params (g := .wave) h,
    fun _ h => exec_renderOf_params (g := .noise) h⟩

theorem parRead_congr {r : ParReg} {s t : State} (h : sameParams r.channel s t) : parRead t r = parRead s r := by
  cases r <;> simp only [ParReg.channel, sameParams] at h <;> simp only [parRead, h]

/-- Settles O15: a RENDER that completes leaves a block, which stores its own generator and its own elements alone. -/
theorem renderFrame : Obligations.RenderFrame := by
  intro g F d s t _ h
  obtain ⟨-, -, -, rfl⟩ := exec_renderOf_next_iff.1 h
  have hother := fun c (hc : c ≠ g) => s.block_sameGen_other g (s.framesRun g F) d.base hc
  refine ⟨hother, fun r => parRead_congr ?_, fun c => ?_, by simp, by simp, fun x hx => ?_⟩
  · rcases eq_or_ne r.channel g with rfl | hr
    · exact s.block_sameParams r.channel _ d.base
    · exact sameParams_of_sameGen (hother _ hr)
  · rcases eq_or_ne c g with rfl | hc
    · simp
    · exact live_congr (hother c hc)
  · have hle := s.framesRun_le g F
    exact s.block_unchangedOutside g _ d.base x (by omega)

section
variable {g : Channel} {F : Nat} {d : Slice} {s : State}

theorem exec_renderOf_faults (hl : s.live g = true) (hF : F ≤ d.len) (ht : triggerOf s g > 1 / 2)
    (hf : frequencyOf s g ≤ 0) : exec (renderOf g F d) s = .fault (.frequencyNotPositive g) := by
  have hon := enabledOf_eq_true_iff.2 ht
  cases g with
  | pulse => exact renderBlock_fault_iff.2 ⟨hl, hF, (renderFrames_error_iff _ _).2 ⟨hon, hf, rfl⟩⟩
  | wave =>
    refine renderBlock_fault_iff.2 ⟨hl, hF, (renderFrames_error_iff _ _).2 ⟨?_, ?_, rfl⟩⟩
    · rwa [WaveGen.enter_enabled]
    · rwa [WaveGen.enter_S]
  | noise =>
    refine renderBlock_fault_iff.2 ⟨hl, hF, (renderFrames_error_iff _ _).2 ⟨?_, ?_, rfl⟩⟩
    · rwa [NoiseGen.enter_enabled]
    · rwa [NoiseGen.enter_S]

theorem renderBlock_of_short {γ : Type} {put : γ → State} {block : Except Fault (γ × Memory)}
    (hl : s.live g = true) (hF : d.len < F) : renderBlock g F d s put block = .refused (.sliceTooShort g) := by
  unfold renderBlock whenLive Slice.holds
  rw [if_pos hl, decide_eq_false (Nat.not_le.2 hF)]
  rfl

end

/-- Settles O16: the fault of `exec_renderOf_faults`, and the block of no frames that a disabled RENDER is. -/
theorem nonPositiveFrequencyFaults : Obligations.NonPositiveFrequencyFaults := fun _ _ _ _ hl hF _ hf =>
  ⟨fun ht => exec_renderOf_faults hl hF ht hf, fun ht => ⟨_, exec_renderOf_disabled hl hF ht⟩⟩

/-- Settles O17: `renderBlock_of_short` at each generator. -/
theorem shortSliceRefused : Obligations.ShortSliceRefused := by
  intro g F d s hl hF
  cases g <;> exact renderBlock_of_short hl hF

/-- The entered generator counts from where it stood. -/
theorem State.block_zero_counters (s : State) (g : Channel) (a : Nat) :
    (s.block g 0 a).pg.c = s.pg.c ∧ (s.block g 0 a).wg.sampleCounter = s.wg.sampleCounter ∧
      (s.block g 0 a).wg.stepIndex = s.wg.stepIndex ∧ (s.block g 0 a).ng.c = s.ng.c ∧
      (s.block g 0 a).ng.lfsr = s.ng.lfsr := by
  cases g <;> simp [State.block, renderLoop, PulseGen.enter]

/-- Settles O18: with `F = 0` the block has no frame, enabled or not, and is the entered generator. -/
theorem zeroFramesMoveNothing : Obligations.ZeroFramesMoveNothing := by
  intro g d s hl _ hf
  have h : exec (renderOf g 0 d) s = .next (s.block g 0 d.base) := by
    rw [exec_renderOf_completes hl (Nat.zero_le _) hf, Nat.le_zero.1 (s.framesRun_le g 0)]
  have hlatch := (exec_renderOf_params h).1
  obtain ⟨hc, hsc, hsi, hnc, hx⟩ := s.block_zero_counters g d.base
  refine ⟨_, h, s.block_zero_dst g d.base, hc, hsc, hsi, hnc, hx, exec_renderOf_enableFlag h, ?_, ?_, ?_⟩
  · rintro rfl
    exact hlatch
  · rintro rfl
    exact hlatch
  · rintro rfl
    exact ⟨hlatch, WaveGen.enter_table s.wg, WaveGen.enter_slot s.wg⟩

/-- Settles O19: the second block goes on where the first ended (`State.block_add`), and a RENDER that is not enabled runs
none of the frames of either. -/
theorem blocksJoin : Obligations.BlocksJoin := by
  intro g m n d₁ d₂ d s t _ h hd hd₂ hn hmn
  obtain ⟨hl, -, hf, rfl⟩ := exec_renderOf_next_iff.1 h
  have hP := s.block_sameParams g (s.framesRun g m) d₁.base
  rw [exec_renderOf_completes ((s.block_live g _ _).trans hl) hn ((State.frequencyFit_congr hP).2 hf),
    exec_renderOf_completes hl hmn hf, State.framesRun_congr hP, hd, hd₂]
  rcases lt_or_ge (1 / 2) (triggerOf s g) with hon | hoff
  · simp only [State.framesRun_of_enabled hon, State.block_add]
  · simp only [State.framesRun_of_disabled hoff]
    rw [State.block_zero_base _ g (d₁.base + m) (d₁.base + 0), State.block_add]

/-- A RENDER that completes does so too from every state with its generator, to the same number of frames. -/
theorem exec_renderOf_of_sameGen {g : Channel} {F : Nat} {d : Slice} {s t u : State}
    (h : exec (renderOf g F d) s = .next t) (hg : sameGen g s u) :
    exec (renderOf g F d) u = .next (u.block g (s.framesRun g F) d.base) := by
  obtain ⟨hl, hF, hf, -⟩ := exec_renderOf_next_iff.1 h
  have hP := sameParams_of_sameGen hg
  rw [exec_renderOf_completes ((live_congr hg).trans hl) hF ((State.frequencyFit_congr hP).2 hf),
    State.framesRun_congr hP]

/-- Settles O20: each RENDER leaves a block, the other one's registers stand as they were, and the two blocks commute
(`State.block_comm`). -/
theorem rendersCommute : Obligations.RendersCommute := by
  intro g h m n d e s t u hgh hm _ _ hd ht hu
  have hvt := exec_renderOf_of_sameGen hu (s.block_sameGen_other g (s.framesRun g m) d.base hgh.symm)
  have hvu := exec_renderOf_of_sameGen ht (s.block_sameGen_other h (s.framesRun h n) e.base hgh)
  have hm' := s.framesRun_le g m
  have hn' := s.framesRun_le h n
  obtain ⟨-, -, -, rfl⟩ := exec_renderOf_next_iff.1 ht
  obtain ⟨-, -, -, rfl⟩ := exec_renderOf_next_iff.1 hu
  refine ⟨_, hvt, hvu.trans (congrArg _ (State.block_comm hgh hm ?_))⟩
  unfold disjointSlices at hd
  omega

theorem State.inRange_gain {g : Channel} {s : State} (h : s.inRange g) : inUnit (gainOf s g) := by
  cases g with
  | pulse => exact of_decide_eq_true ((h .pGain rfl).resolve_right fun hf => Bool.false_ne_true hf.1)
  | wave => exact of_decide_eq_true ((h .wGain rfl).resolve_right fun hf => Bool.false_ne_true hf.1)
  | noise => exact of_decide_eq_true ((h .nGain rfl).resolve_right fun hf => Bool.false_ne_true hf.1)

/-- Settles O21: a sample is a factor in [-1, 1] scaled by the gain (`State.block_read`), which lies in [0, 1]. -/
theorem samplesWithinGain : Obligations.SamplesWithinGain := by
  intro g F d s t hm hr ht h n hn
  obtain ⟨-, -, -, rfl⟩ := exec_renderOf_next_iff.1 h
  rw [State.framesRun_of_enabled ht]
  obtain ⟨f, hread, hf, hsign⟩ := s.block_read g F d.base hm hn
  obtain ⟨h0, h1⟩ := State.inRange_gain hr
  obtain ⟨hlow, hhigh⟩ := mix_range hf h0
  rw [mix_eq] at hlow hhigh
  rw [hread]
  refine ⟨hlow, hhigh, by linarith, by linarith, fun hg => ?_⟩
  rcases hsign hg with rfl | rfl
  · exact .inl (neg_one_mul _)
  · exact .inr (one_mul _)

end Sys2Proof.Machine
end

section
/-! 44_control_system.md: the liveness an operation needs (V7), CREATE and DESTROY (R200 to R205), the SETP forms (R206 to R217)
and the control thread's WLOAD and WPOST (R218 to R220). -/

namespace Sys2Proof.Machine

/-! ## Liveness -/

theorem whenLive_of_live {g : Channel} {s : State} {k : Result} (h : s.live g = true) : whenLive g s k = k := if_pos h

theorem whenLive_of_not_live {g : Channel} {s : State} {k : Result} (h : s.live g = false) :
    whenLive g s k = .refused (.notLive g) := by
  rw [whenLive, h]
  rfl

theorem whenNotLive_of_live {g : Channel} {s : State} {k : Result} (h : s.live g = true) :
    whenNotLive g s k = .refused (.alreadyLive g) := by
  rw [whenNotLive, h]
  rfl

theorem exec_createOf_of_live {g : Channel} {s : State} (h : s.live g = true) :
    exec (createOf g) s = .refused (.alreadyLive g) := by
  cases g <;> exact whenNotLive_of_live h

/-- Every operation but CREATE needs its generator live (44_control_system.md R203 to R219). -/
theorem exec_of_not_live {i : Instr} {s : State} (hi : i ≠ createOf i.channel) (h : s.live i.channel = false) :
    exec i s = .refused (.notLive i.channel) := by
  cases i with
  | createP | createW | createN => exact absurd rfl hi
  | _ => exact whenLive_of_not_live h

theorem live_of_exec_next {i : Instr} {s t : State} (hi : i ≠ createOf i.channel) (h : exec i s = .next t) :
    s.live i.channel = true := by
  by_contra hl
  rw [exec_of_not_live hi (Bool.eq_false_iff.2 hl)] at h
  cases h

/-- Settles O9: `exec_createOf_of_live` and `exec_of_not_live`. -/
theorem wrongLivenessRefused : Obligations.WrongLivenessRefused := fun _ _ =>
  ⟨fun hi hl => (congrArg (exec · _) hi).trans (exec_createOf_of_live hl), exec_of_not_live⟩

/-! ## CREATE and DESTROY -/

/-- Settles O6: the three CREATEs store a dead generator made live, whose registers hold the values of 10_state.md R42. -/
theorem createGivesResetState : Obligations.CreateGivesResetState := fun _ =>
  ⟨fun h => execCreateP_next_iff.2 ⟨h, rfl⟩, fun h => execCreateW_next_iff.2 ⟨h, rfl⟩,
    fun h => execCreateN_next_iff.2 ⟨h, rfl⟩⟩

theorem exec_sampleRate {i : Instr} {s t : State} (h : exec i s = .next t) : t.sampleRate = s.sampleRate := by
  rw [exec_eq_adopt h]
  cases i.channel <;> rfl

theorem exec_pending {i : Instr} {s t : State} (h : exec i s = .next t) : t.pending = s.pending := by
  rw [exec_eq_adopt h]
  cases i.channel <;> rfl

/-- Only a RENDER writes samples (10_state.md R44). -/
theorem exec_dst_of_ne_renderOf {i : Instr} {s t : State} (h : exec i s = .next t)
    (hi : ∀ g F d, i ≠ renderOf g F d) : t.dst = s.dst := by
  obtain ⟨g, rfl⟩ | ⟨g, rfl⟩ | ⟨r, v, hr⟩ | ⟨g, F, d, rfl⟩ | hp := instr_family_cases i
  · cases g with
    | pulse => obtain ⟨-, rfl⟩ := execCreateP_next_iff.1 h; rfl
    | wave => obtain ⟨-, rfl⟩ := execCreateW_next_iff.1 h; rfl
    | noise => obtain ⟨-, rfl⟩ := execCreateN_next_iff.1 h; rfl
  · cases g with
    | pulse => obtain ⟨-, rfl⟩ := execDestroyP_next_iff.1 h; rfl
    | wave => obtain ⟨-, rfl⟩ := execDestroyW_next_iff.1 h; rfl
    | noise => obtain ⟨-, rfl⟩ := execDestroyN_next_iff.1 h; rfl
  · obtain ⟨-, rfl⟩ := (exec_setp_next_iff hr).1 h
    exact (parWrite_frame s r v).2.1
  · exact absurd rfl (hi g F d)
  · obtain ⟨table, rfl⟩ := exec_post_eq hp h
    rfl

/-- Settles O53: what an operation stores leaves the sample rate and the queue (`exec_eq_adopt`), and only a RENDER stores
other samples. -/
theorem onlyRenderWritesSamples : Obligations.OnlyRenderWritesSamples := fun _ _ _ _ h =>
  ⟨exec_sampleRate h, exec_pending h, exec_dst_of_ne_renderOf h⟩

/-- Settles O7: the DESTROY completes (`exec_destroyOf_of_live`), reaches its own generator alone (`exec_sameGen_other`) and
writes no sample. -/
theorem destroyEndsTheSession : Obligations.DestroyEndsTheSession := by
  intro g s hl
  obtain ⟨t, h, ht⟩ := exec_destroyOf_of_live hl
  refine ⟨t, h, ht, fun c hc => ?_, exec_sampleRate h, exec_dst_of_ne_renderOf h fun c F d => ?_, exec_pending h⟩
  · exact exec_sameGen_other h (by rwa [destroyOf_channel])
  · cases g <;> cases c <;> simp [destroyOf, renderOf]

/-! ## SETP -/

/-- Settles O10: a SETP of a live generator is the write of its register, which leaves the rest alone
(`parRead_parWrite_other`, `parWrite_frame`). -/
theorem setpWritesOneRegister : Obligations.SetpWritesOneRegister := by
  intro i r v s hi hl
  obtain ⟨hrate, hdst, hpending, hpg, hwg, hng⟩ := parWrite_frame s r v
  exact ⟨_, exec_setp_of_live hi hl, parRead_parWrite_same s r v, fun r' => parRead_parWrite_other s r r' v, hpg, hwg,
    hng, hrate, hdst, hpending⟩

/-! ## The control thread -/

/-- Settles O33: both POSTs complete, and the second overwrites the mailbox. -/
theorem newestTableWins : Obligations.NewestTableWins := by
  intro a b s hl ha hb
  rw [exec_wpost_of_live hl ha, andThen_next]
  exact exec_wpost_of_live (s := s.setWg (s.wg.post (tableOfCodes a))) hl hb

/-- Settles O35: WLOAD of a live generator is UNPACK and POST. -/
theorem wloadPostsUnpackedTable : Obligations.WloadPostsUnpackedTable := fun _ _ hl => exec_wload_of_live hl

/-- Settles O39: the codes do not fit (`codesFit_iff`). -/
theorem codeAboveFifteenRefused : Obligations.CodeAboveFifteenRefused := by
  intro c s k hl hk
  have hfit : ¬codesFit c = true := fun h => absurd (codesFit_iff.1 h k) (Nat.not_le.2 hk)
  exact (whenLive_of_live (g := .wave) hl).trans (if_neg hfit)

/-- UNPACK reads the lower half of each word alone (20_memory.md R58). -/
theorem unpackEntry_congr {w w' : PackedWord} (h : w.extractLsb' 0 16 = w'.extractLsb' 0 16) (i : Nat) :
    unpackEntry w i = unpackEntry w' i := by
  have hlow : ∀ (x : PackedWord) (a : Nat), a ≤ 12 → x.extractLsb' a 4 = (x.extractLsb' 0 16).extractLsb' a 4 := by
    intro x a ha
    refine BitVec.eq_of_getLsbD_eq fun j hj => ?_
    simp only [BitVec.getLsbD_extractLsb', Nat.zero_add]
    rw [decide_eq_true (by omega : a + j < 16), Bool.true_and]
  have hoff : i % 4 / 2 * 8 + (if i % 2 = 0 then 4 else 0) ≤ 12 := by
    split <;> omega
  rw [unpackEntry_eq, unpackEntry_eq, hlow w _ hoff, hlow w' _ hoff, h]

theorem unpack_congr {w w' : Vector PackedWord 8}
    (h : ∀ k, (w.get k).extractLsb' 0 16 = (w'.get k).extractLsb' 0 16) : unpack w = unpack w' :=
  congrArg Vector.ofFn (funext fun i => unpackEntry_congr (h _) i)

/-- Settles O37: WLOAD reads its words through UNPACK alone. -/
theorem upperHalvesIgnored : Obligations.UpperHalvesIgnored := by
  intro w w' s h
  show execWload w s = execWload w' s
  rw [execWload, execWload, unpack_congr h]

/-- Settles O52: the control thread's two operations are POSTs (`exec_post_eq`); the operations that reach the mailbox are
listed by `exec_slot_cases`. -/
theorem controlThreadTouchesOnlyMailbox : Obligations.ControlThreadTouchesOnlyMailbox := by
  intro i s t _ h
  refine ⟨fun ha => ?_, fun ha hr hc hd => ?_⟩
  · have hp : (∃ w, i = .wload w) ∨ ∃ c, i = .wpost c := by
      cases i with
      | wload w => exact .inl ⟨w, rfl⟩
      | wpost c => exact .inr ⟨c, rfl⟩
      | _ => cases ha
    obtain ⟨table, rfl⟩ := exec_post_eq hp h
    rfl
  · rcases exec_slot_cases h with hs | ⟨w, rfl⟩ | ⟨c, rfl⟩ | ⟨F, d, rfl⟩ | rfl | rfl
    · exact hs
    · cases ha
    · cases ha
    · exact absurd rfl (hr F d)
    · exact absurd rfl hc
    · exact absurd rfl hd

/-! ## Every well-formed operation completes -/

theorem wellFormed_renderOf {g : Channel} {F : Nat} {d : Slice} : (renderOf g F d).wellFormed = true ↔ F ≤ d.len := by
  cases g <;> exact decide_eq_true_iff

theorem destroyOf_ne_createOf (g c : Channel) : destroyOf g ≠ createOf c := by
  cases g <;> cases c <;> simp [destroyOf, createOf]

theorem renderOf_ne_createOf (g c : Channel) (F : Nat) (d : Slice) : renderOf g F d ≠ createOf c := by
  cases g <;> cases c <;> simp [renderOf, createOf]

theorem setpTarget_createOf (g : Channel) : setpTarget (createOf g) = none := by cases g <;> rfl

theorem ne_createOf_of_setpTarget {i : Instr} {r : ParReg} {v : Sample} (hi : setpTarget i = some (r, v))
    (g : Channel) : i ≠ createOf g := by
  rintro rfl
  rw [setpTarget_createOf] at hi
  cases hi

/-- Settles O49: by family, a CREATE on a generator that is not live, every other operation on a live one. -/
theorem operationsComplete : Obligations.OperationsComplete := by
  intro i s hw hc hl hr
  obtain ⟨g, rfl⟩ | ⟨g, rfl⟩ | ⟨r, v, hi⟩ | ⟨g, F, d, rfl⟩ | ⟨w, rfl⟩ | ⟨c, rfl⟩ := instr_family_cases i
  · rw [createOf_channel] at hc
    exact exec_createOf_of_not_live (hc rfl)
  · have hlive := hl (destroyOf_ne_createOf _ _)
    rw [destroyOf_channel] at hlive
    obtain ⟨t, h, -⟩ := exec_destroyOf_of_live hlive
    exact ⟨t, h⟩
  · have hlive := hl (ne_createOf_of_setpTarget hi _)
    rw [← setpTarget_channel hi] at hlive
    exact ⟨_, exec_setp_of_live hi hlive⟩
  · have hlive := hl (renderOf_ne_createOf _ _ _ _)
    rw [renderOf_channel] at hlive hr
    exact ⟨_, exec_renderOf_completes hlive (wellFormed_renderOf.1 hw) (hr ⟨F, d, rfl⟩).2⟩
  · exact ⟨_, exec_wload_of_live (hl Instr.noConfusion)⟩
  · exact ⟨_, exec_wpost_of_live (hl Instr.noConfusion) hw⟩

end Sys2Proof.Machine
end

section
/-! 42_wavetable.md: the span of an enabled block (R149, R155), the swap (R151, R152, R154), constant tables (R156) and the
whole replacement of the table (R141). -/

namespace Sys2Proof.Machine

section
variable {s : State} {p : Nat} (hp : p = stepSamples (period s.sampleRate s.wg.P.frequency)) (n a : Nat)
include hp

theorem waveFrameOf_enter : s.wg.enter.frameOf s.sampleRate = waveFrame p := by
  rw [hp, WaveGen.frameOf, WaveGen.enter_S]

/-- The wavetable generator after a block that has a frame (`wave_iterate`). -/
theorem State.block_succ_wg : (s.block .wave (n + 1) a).wg =
    { s.wg.enter with
      sampleCounter := ((if s.wg.sampleCounter > p then 0 else s.wg.sampleCounter) + n) % (p + 1) + 1
      stepIndex := (if s.wg.sampleCounter > p then s.wg.stepIndex + 1 else s.wg.stepIndex) +
        Fin.ofNat 32 (((if s.wg.sampleCounter > p then 0 else s.wg.sampleCounter) + n) / (p + 1)) } := by
  have h := wave_iterate p s.wg.enter n
  rw [WaveGen.enter_sampleCounter, WaveGen.enter_stepIndex] at h
  refine (renderLoop_gen _ _ (n + 1) a _ _).trans ?_
  rw [waveFrameOf_enter hp, h]

/-- The sample of frame `k` of a block, by the frames before it. -/
theorem waveBlock_read (hm : Memory.wf s.dst) {n k : Nat} (hk : k < n) :
    Memory.read (s.block .wave n a).dst (a + k) =
      (waveFrame p ((fun x => (waveFrame p x).2)^[k] s.wg.enter)).1 * s.wg.P.gain := by
  refine (renderLoop_read _ _ n a _ hm hk).trans ?_
  rw [waveFrameOf_enter hp, mix_eq]

end

/-- Settles O27: an enabled block plays the entries and leaves the counters that `wave_factor` and `wave_iterate` give. -/
theorem waveSpan : Obligations.WaveSpan := by
  intro F d s p e b hl hF hm _ ht hf hp he hb
  refine ⟨_, exec_renderOf_enabled (g := .wave) hl hF ht hf, fun n hn => ?_, ?_⟩
  · rw [waveBlock_read hp _ hm hn, wave_factor, WaveGen.enter_table, WaveGen.enter_sampleCounter,
      WaveGen.enter_stepIndex, ← he, ← hb]
    rfl
  · cases F with
    | zero => simp [tableToPlay]
    | succ n =>
      rw [State.block_succ_wg hp, ← he, ← hb]
      simp [tableToPlay]

/-- Settles O28: a disabled RENDER.W is a block of no frames, which is the entered generator. -/
theorem disabledWaveStillSwaps : Obligations.DisabledWaveStillSwaps := by
  intro F d s hl hF _ ht
  refine ⟨_, exec_renderOf_disabled (g := .wave) hl hF ht, ?_, ?_, ?_, ?_, rfl, rfl, rfl⟩ <;> simp [tableToPlay]

/-- Settles O29: a block of no frames is the entered generator, and the first frame plays from it on either side of the wrap
test (`waveFrame_of_le`, `waveFrame_of_gt`). -/
theorem swapKeepsPhase : Obligations.SwapKeepsPhase := by
  intro d s t hl hslot hm _ ht hf hd
  have htable : s.wg.enter.table = t := by simp [hslot]
  have hplay := exec_renderOf_enabled (g := .wave) (F := 1) hl hd ht hf
  have hfirst := waveBlock_read (s := s) rfl d.base hm Nat.zero_lt_one
  rw [Nat.add_zero, Function.iterate_zero, id_eq] at hfirst
  refine ⟨⟨_, exec_renderOf_enabled (g := .wave) hl (Nat.zero_le _) ht hf, htable, ?_, ?_, ?_⟩, fun hc => ?_,
    fun hc => ?_⟩
  · simp
  · simp
  · simp
  · refine ⟨_, hplay, ?_⟩
    rw [hfirst, waveFrame_of_le (by simpa using hc), htable, WaveGen.enter_stepIndex]
  · refine ⟨_, hplay, ?_, ?_⟩
    · exact (congrArg WaveGen.stepIndex (State.block_succ_wg rfl 0 d.base)).trans (by simp [hc])
    · rw [hfirst, waveFrame_of_gt (by simpa using hc), htable, WaveGen.enter_stepIndex]

theorem amplitude_zero : amplitude 0 = 1 := (amplitude_ofNat (k := 0) (by decide)).trans (by norm_num)

theorem amplitude_fifteen : amplitude 15 = -1 := (amplitude_ofNat (k := 15) (by decide)).trans (by norm_num)

/-- Settles O30: every sample is the amplitude of some entry of the table that plays (`exec_renderW_read`). -/
theorem constantTables : Obligations.ConstantTables := by
  intro F d s hl hF hm _ ht hf
  have h := exec_renderOf_enabled (g := .wave) hl hF ht hf
  refine ⟨_, h, fun hk n hn => ?_, fun hk n hn => ?_⟩
  · obtain ⟨k, hread⟩ := exec_renderW_read h hm ht hn
    rw [hread, hk, amplitude_zero]
  · obtain ⟨k, hread⟩ := exec_renderW_read h hm ht hn
    rw [hread, hk, amplitude_fifteen]

/-- Settles O32: a RENDER.W takes the waiting table, if there is one; any other operation but CREATE.W and DESTROY.W reaches
the parameter registers and the mailbox at most (`exec_sameBeyondParams`). -/
theorem tableReplacedWholesale : Obligations.TableReplacedWholesale := by
  intro i s t _ h hc hd
  by_cases hr : ∃ F d, i = .renderW F d
  · obtain ⟨F, d, rfl⟩ := hr
    obtain ⟨-, -, k, j, m, rfl, -⟩ := execRenderW_frame h
    cases hslot : s.wg.slot with
    | none => simp [hslot]
    | some table => simp [hslot]
  · push Not at hr
    exact .inl (congrArg WaveGen.table (exec_sameBeyondParams (g := .wave) h hr hc hd) :)

end Sys2Proof.Machine
end

section
/-! 43_noise.md: the tick cadence of an enabled block (R177 to R180), the register a disabled block retains (R183), and the
lock-up (R185, R187). -/

namespace Sys2Proof.Machine

/-! ## Cadence -/

section
variable {s : State} {p : Nat} (hp : p = period s.sampleRate s.ng.P.frequency) (n a : Nat)
include hp

theorem noiseFrameOf_enter : s.ng.enter.frameOf s.sampleRate = noiseFrame p (shortOf s.ng.P.width) := by
  rw [hp, NoiseGen.frameOf, NoiseGen.enter_S]

/-- The noise generator after a block that has a frame (`noise_iterate`). -/
theorem State.block_succ_ng : (s.block .noise (n + 1) a).ng =
    { s.ng.enter with
      c := ((if s.ng.c > p then 0 else s.ng.c) + n) % (p + 1) + 1
      lfsr := (lfsrTick (shortOf s.ng.P.width))^[((if s.ng.c > p then 0 else s.ng.c) + n) / (p + 1)]
        (if s.ng.c > p then lfsrTick (shortOf s.ng.P.width) s.ng.lfsr else s.ng.lfsr) } := by
  have h := noise_iterate p (shortOf s.ng.P.width) s.ng.enter n
  rw [NoiseGen.enter_c, NoiseGen.enter_lfsr] at h
  refine (renderLoop_gen _ _ (n + 1) a _ _).trans ?_
  rw [noiseFrameOf_enter hp, h]

/-- The sample of frame `k` of a block is the gain, negative for a 1 in bit 0 of the register (`noise_factor`). -/
theorem noiseBlock_read (hm : Memory.wf s.dst) {n k : Nat} (hk : k < n) :
    Memory.read (s.block .noise n a).dst (a + k) =
      if ((lfsrTick (shortOf s.ng.P.width))^[((if s.ng.c > p then 0 else s.ng.c) + k) / (p + 1)]
        (if s.ng.c > p then lfsrTick (shortOf s.ng.P.width) s.ng.lfsr else s.ng.lfsr)).getLsbD 0 = true
      then -s.ng.P.gain else s.ng.P.gain := by
  refine (renderLoop_read _ _ n a _ hm hk).trans ?_
  rw [noiseFrameOf_enter hp, noise_factor, NoiseGen.enter_c, NoiseGen.enter_lfsr, signFactor, mix_sign]

end

/-- Settles O46: an enabled block plays the bits and leaves the counter and register that `noise_factor` and `noise_iterate`
give, with the form of the tick that the mode selects (`lfsrTick_eq`). -/
theorem noiseCadence : Obligations.NoiseCadence := by
  intro F d s p e k b hl hF hm _ ht hf hp hk he hb
  have htick : lfsrTick (shortOf s.ng.P.width) = if k then tickShort else tickLong := by
    rw [← lfsrTick_eq, hk]
    rfl
  refine ⟨_, exec_renderOf_enabled (g := .noise) hl hF ht hf, fun n hn => ?_, ?_⟩
  · rw [noiseBlock_read hp _ hm hn, htick, ← he, ← hb, ticks_eq_iterate]
  · cases F with
    | zero => simp
    | succ n =>
      rw [State.block_succ_ng hp, htick, ← he, ← hb]
      simp [ticks_eq_iterate]

/-- Settles O47: a disabled RENDER.N is a block of no frames, which is the entered generator. -/
theorem disabledNoiseRetains : Obligations.DisabledNoiseRetains := by
  intro F d s hl hF _ ht
  refine ⟨_, exec_renderOf_disabled (g := .noise) hl hF ht, ?_, ?_, rfl, rfl, rfl⟩ <;> simp

/-! ## Lock-up -/

theorem tickLong_lockUp : tickLong 0x7FFF = 0x7FFF := by decide

theorem tickShort_lockUp : tickShort 0x7FFF = 0x7FFF := by decide

/-- All ones is the fixed point of both ticks (43_noise.md R185). -/
theorem lfsrTick_iterate_lockUp (k : Bool) (n : Nat) : (lfsrTick k)^[n] 0x7FFF = 0x7FFF := by
  refine Function.iterate_fixed ?_ n
  cases k with
  | false => exact tickLong_lockUp
  | true => exact tickShort_lockUp

section
variable {s t : State} (hx : s.ng.lfsr = 0x7FFF)
include hx

/-- Whether or not the first wrap test ticks it, the register of a locked-up generator is all ones. -/
theorem lockUp_of_first_tick (c : Prop) [Decidable c] (k : Bool) :
    (if c then lfsrTick k s.ng.lfsr else s.ng.lfsr) = 0x7FFF := by
  rw [hx]
  split
  · exact lfsrTick_iterate_lockUp k 1
  · rfl

theorem State.block_lockUp (n a : Nat) : (s.block .noise n a).ng.lfsr = 0x7FFF := by
  cases n with
  | zero => simpa using hx
  | succ n =>
    rw [State.block_succ_ng rfl, lockUp_of_first_tick hx]
    exact lfsrTick_iterate_lockUp _ _

theorem noiseBlock_read_lockUp (hm : Memory.wf s.dst) {n k : Nat} (hk : k < n) (a : Nat) :
    Memory.read (s.block .noise n a).dst (a + k) = -s.ng.P.gain := by
  rw [noiseBlock_read rfl a hm hk, lockUp_of_first_tick hx, lfsrTick_iterate_lockUp]
  exact if_pos (by decide)

end

/-- Settles O48: a block leaves all ones in the register (`State.block_lockUp`), a CREATE.N of a live generator is refused, and
any other operation but DESTROY.N reaches the parameter registers at most (`exec_sameBeyondParams`). -/
theorem lockUpPersists : Obligations.LockUpPersists := by
  intro i s t _ h hl hx hd
  by_cases hr : ∃ F d, i = .renderN F d
  · obtain ⟨F, d, rfl⟩ := hr
    obtain ⟨-, -, -, rfl⟩ := exec_renderOf_next_iff (g := .noise).1 h
    refine ⟨(s.block_live .noise _ _).trans hl, State.block_lockUp hx _ _, ?_⟩
    rintro F' d' hFd hm ht n hn
    cases hFd
    rw [State.framesRun_of_enabled (g := .noise) ht]
    exact noiseBlock_read_lockUp hx hm hn _
  · push Not at hr
    have hc : i ≠ .createN := by
      rintro rfl
      cases h.symm.trans (exec_createOf_of_live (g := .noise) hl)
    have hsame : t.ng = { s.ng with P := t.ng.P } :=
      exec_sameBeyondParams (g := .noise) h hr hc hd
    rw [hsame]
    exact ⟨hl, hx, fun F d hi => absurd hi (hr F d)⟩

end Sys2Proof.Machine
end

section
/-! The invariants: what every step keeps (10_state.md R23, R29), and what the host's contract bounds (10_state.md R41,
00_scope.md R16, 60_exceptions.md R228).

What an operation that completes can do to a generator is said once, in `exec_gen_cases`; each invariant is then the five
cases of it. -/

namespace Sys2Proof.Machine

/-- An operation leaves a generator as it is, begins or ends it, reaches its parameter registers and mailbox, or renders
it. -/
theorem exec_gen_cases {i : Instr} {s t : State} (h : exec i s = .next t) (g : Channel) :
    sameGen g s t ∨ i = createOf g ∨ i = destroyOf g ∨ (s.live g = true ∧ sameBeyondParams g s t) ∨
      ∃ F d, i = renderOf g F d := by
  by_cases hg : g = i.channel
  case neg => exact .inl (exec_sameGen_other h hg)
  by_cases hc : i = createOf g
  case pos => exact .inr (.inl hc)
  by_cases hd : i = destroyOf g
  case pos => exact .inr (.inr (.inl hd))
  by_cases hr : ∃ F d, i = renderOf g F d
  case pos => exact .inr (.inr (.inr (.inr hr)))
  push Not at hr
  subst hg
  exact .inr (.inr (.inr (.inl ⟨live_of_exec_next hc h, exec_sameBeyondParams h hr hc hd⟩)))

/-! ## The invariant of the state -/

/-- The part of `State.inv` that speaks of one generator. -/
def State.genInv (s : State) (g : Channel) : Prop :=
  (s.live g = false → sameGen g State.reset s) ∧
    (s.latchInRange g → enableFlag s g = enabledOf (latchedTriggerOf s g))

theorem State.inv_iff {s : State} : s.inv ↔ Memory.wf s.dst ∧ ∀ g, s.genInv g := by
  constructor
  · rintro ⟨hm, hp, hw, hn, hflag⟩
    refine ⟨hm, fun g => ⟨?_, hflag g⟩⟩
    cases g with
    | pulse => exact hp
    | wave => exact hw
    | noise => exact hn
  · rintro ⟨hm, hgen⟩
    exact ⟨hm, (hgen .pulse).1, (hgen .wave).1, (hgen .noise).1, fun g => (hgen g).2⟩

section
variable {i : Instr} {g : Channel} {s t : State}

theorem sameBeyondParams_live (h : sameBeyondParams g s t) : t.live g = s.live g := by
  cases g with
  | pulse => exact (congrArg PulseGen.live h :)
  | wave => exact (congrArg WaveGen.live h :)
  | noise => exact (congrArg NoiseGen.live h :)

theorem sameBeyondParams_latchInRange (h : sameBeyondParams g s t) : t.latchInRange g ↔ s.latchInRange g := by
  cases g with
  | pulse => exact latchInRange_pulse (congrArg PulseGen.S h :)
  | wave => exact latchInRange_wave (congrArg WaveGen.S h :)
  | noise => exact latchInRange_noise (congrArg NoiseGen.S h :)

theorem sameBeyondParams_latchedTriggerOf (h : sameBeyondParams g s t) :
    latchedTriggerOf t g = latchedTriggerOf s g := by
  cases g with
  | pulse => exact (congrArg (fun p : PulseGen => p.S.trigger) h :)
  | wave => exact (congrArg (fun w : WaveGen => w.S.trigger) h :)
  | noise => exact (congrArg (fun n : NoiseGen => n.S.trigger) h :)

/-- The flag and the latch of a generator stand as they were. -/
theorem flag_of_sameBeyondParams (hs : s.genInv g) (h : sameBeyondParams g s t) :
    t.latchInRange g → enableFlag t g = enabledOf (latchedTriggerOf t g) := by
  rw [sameBeyondParams_latchInRange h, enableFlag_of_sameBeyondParams h, sameBeyondParams_latchedTriggerOf h]
  exact hs.2

theorem genInv_of_sameGen (hs : s.genInv g) (h : sameGen g s t) : t.genInv g := by
  refine ⟨fun hl => ?_, flag_of_sameBeyondParams hs (sameBeyondParams_of_sameGen h)⟩
  rw [live_congr h] at hl
  exact sameGen_trans (hs.1 hl) h

theorem genInv_of_live (hl : t.live g = true)
    (hf : t.latchInRange g → enableFlag t g = enabledOf (latchedTriggerOf t g)) : t.genInv g :=
  ⟨fun hn => absurd (hl.symm.trans hn) Bool.noConfusion, hf⟩

theorem State.reset_enableFlag (g : Channel) :
    enableFlag State.reset g = enabledOf (latchedTriggerOf State.reset g) := by
  have hoff : enabledOf 0 = false := Bool.eq_false_iff.2 (mt enabledOf_eq_true_iff.1 (by norm_num))
  cases g <;> exact hoff.symm

theorem State.reset_genInv (g : Channel) : State.reset.genInv g :=
  ⟨fun _ => sameGen_refl g _, fun _ => State.reset_enableFlag g⟩

theorem exec_createOf_genInv (h : exec (createOf g) s = .next t) : t.genInv g := by
  cases g with
  | pulse =>
    obtain ⟨-, rfl⟩ := execCreateP_next_iff.1 h
    exact genInv_of_live rfl fun _ => State.reset_enableFlag .pulse
  | wave =>
    obtain ⟨-, rfl⟩ := execCreateW_next_iff.1 h
    exact genInv_of_live rfl fun _ => State.reset_enableFlag .wave
  | noise =>
    obtain ⟨-, rfl⟩ := execCreateN_next_iff.1 h
    exact genInv_of_live rfl fun _ => State.reset_enableFlag .noise

theorem exec_destroyOf_sameGen_reset (h : exec (destroyOf g) s = .next t) : sameGen g State.reset t := by
  cases g with
  | pulse => obtain ⟨-, rfl⟩ := execDestroyP_next_iff.1 h; rfl
  | wave => obtain ⟨-, rfl⟩ := execDestroyW_next_iff.1 h; rfl
  | noise => obtain ⟨-, rfl⟩ := execDestroyN_next_iff.1 h; rfl

/-- A RENDER sets the flag by the trigger it latches, and acts on a live generator only. -/
theorem exec_renderOf_genInv {F : Nat} {d : Slice} (h : exec (renderOf g F d) s = .next t) : t.genInv g := by
  refine genInv_of_live ?_ fun _ => ?_
  · obtain ⟨hl, -, -, rfl⟩ := exec_renderOf_next_iff.1 h
    rw [State.block_live, hl]
  · rw [exec_renderOf_enableFlag h, latchedTriggerOf_of_latchedFrom (exec_renderOf_params h).1]

theorem exec_keeps_genInv (hs : s.genInv g) (h : exec i s = .next t) : t.genInv g := by
  rcases exec_gen_cases h g with hsame | rfl | rfl | ⟨hl, hb⟩ | ⟨F, d, rfl⟩
  · exact genInv_of_sameGen hs hsame
  · exact exec_createOf_genInv h
  · exact genInv_of_sameGen (State.reset_genInv g) (exec_destroyOf_sameGen_reset h)
  · exact genInv_of_live ((sameBeyondParams_live hb).trans hl) (flag_of_sameBeyondParams hs hb)
  · exact exec_renderOf_genInv h

theorem exec_keeps_wf (hs : Memory.wf s.dst) (h : exec i s = .next t) : Memory.wf t.dst := by
  by_cases hr : ∃ g F d, i = renderOf g F d
  · obtain ⟨g, F, d, rfl⟩ := hr
    obtain ⟨-, -, -, rfl⟩ := exec_renderOf_next_iff.1 h
    exact s.block_wf g _ _ hs
  · push Not at hr
    rwa [exec_dst_of_ne_renderOf h hr]

end

/-- Settles O54: every operation keeps the samples canonical (`exec_keeps_wf`) and the invariant of each generator
(`exec_keeps_genInv`). -/
theorem stepKeepsInvariant : Obligations.StepKeepsInvariant := by
  intro s t hs _ h
  rcases step_next_cases h with ⟨-, rfl⟩ | ⟨c, rest, i, -, -, hexec⟩
  · exact hs
  · obtain ⟨hm, hgen⟩ := State.inv_iff.1 hs
    exact State.inv_iff.2 ⟨exec_keeps_wf (s := s.setPending rest) hm hexec,
      fun g => exec_keeps_genInv (genInv_of_sameGen (hgen g) (by cases g <;> rfl)) hexec⟩

/-- Settles O55: no sample is listed, and no generator is live. -/
theorem invariantAtReset : Obligations.InvariantAtReset :=
  State.inv_iff.2 ⟨⟨.nil, fun _ hx => absurd hx List.not_mem_nil⟩, State.reset_genInv⟩

/-! ## The contract -/

/-- The part of `State.countersBounded` that speaks of one generator. -/
def State.counterBounded (s : State) (g : Channel) : Prop :=
  match g with
  | .pulse => s.pg.c ≤ (s.sampleRate : Nat) + 1
  | .wave => s.wg.sampleCounter ≤ (s.sampleRate : Nat) / 32 + 1
  | .noise => s.ng.c ≤ (s.sampleRate : Nat) + 1

theorem State.countersBounded_iff {s : State} : s.countersBounded ↔ ∀ g, s.counterBounded g := by
  constructor
  · rintro ⟨hp, hw, hn⟩ g
    cases g with
    | pulse => exact hp
    | wave => exact hw
    | noise => exact hn
  · exact fun h => ⟨h .pulse, h .wave, h .noise⟩

section
variable {i : Instr} {g : Channel} {s t : State}

theorem State.one_le_frequencyOf (h : s.parametersLegal) (g : Channel) : 1 ≤ frequencyOf s g := by
  cases g with
  | pulse => exact (of_decide_eq_true (h .pFrequency)).1
  | wave => exact (of_decide_eq_true (h .wFrequency)).1
  | noise => exact (of_decide_eq_true (h .nFrequency)).1

theorem counterBounded_of_sameBeyondParams (hs : s.counterBounded g) (h : sameBeyondParams g s t)
    (hr : t.sampleRate = s.sampleRate) : t.counterBounded g := by
  unfold State.counterBounded at hs ⊢
  rw [hr]
  cases g with
  | pulse => exact Eq.trans_le (congrArg PulseGen.c h :) hs
  | wave => exact Eq.trans_le (congrArg WaveGen.sampleCounter h :) hs
  | noise => exact Eq.trans_le (congrArg NoiseGen.c h :) hs

/-- At a legal frequency the wrap test bounds the counter that a frame leaves (41_pulse.md R125, 42_wavetable.md R150,
43_noise.md R181). -/
theorem State.block_succ_counterBounded (hf : 1 ≤ frequencyOf s g) (n a : Nat) :
    (s.block g (n + 1) a).counterBounded g := by
  have hperiod : period s.sampleRate (frequencyOf s g) ≤ s.sampleRate := period_le_rate hf
  have hmod : ∀ x p : Nat, x % (p + 1) + 1 ≤ p + 1 := fun x p => Nat.mod_lt x p.succ_pos
  unfold State.counterBounded
  rw [State.block_sampleRate]
  cases g with
  | pulse =>
    refine (pulseBlock_counter (F := n + 1) (d := ⟨a, 0⟩) (s := s) rfl).trans_le ?_
    rw [if_neg n.succ_ne_zero]
    exact (hmod _ _).trans (Nat.succ_le_succ hperiod)
  | wave =>
    simp only [State.block_succ_wg rfl]
    exact (hmod _ _).trans (Nat.succ_le_succ (Nat.div_le_div_right hperiod))
  | noise =>
    simp only [State.block_succ_ng rfl]
    exact (hmod _ _).trans (Nat.succ_le_succ hperiod)

theorem State.block_counterBounded (hf : 1 ≤ frequencyOf s g) (hb : s.counterBounded g) (n a : Nat) :
    (s.block g n a).counterBounded g := by
  cases n with
  | zero =>
    obtain ⟨hc, hsc, -, hnc, -⟩ := s.block_zero_counters g a
    unfold State.counterBounded at hb ⊢
    rwa [hc, hsc, hnc, State.block_sampleRate]
  | succ n => exact State.block_succ_counterBounded hf n a

theorem State.reset_counterBounded (g : Channel) : State.reset.counterBounded g := by
  cases g <;> exact Nat.zero_le _

/-- CREATE and DESTROY leave the reset values (10_state.md R42; log 3). -/
theorem exec_createOf_or_destroyOf_reset (hi : i = createOf g ∨ i = destroyOf g) (h : exec i s = .next t) :
    sameParams g State.reset t ∧ t.counterBounded g := by
  rcases hi with rfl | rfl
  · cases g with
    | pulse => obtain ⟨-, rfl⟩ := execCreateP_next_iff.1 h; exact ⟨rfl, Nat.zero_le _⟩
    | wave => obtain ⟨-, rfl⟩ := execCreateW_next_iff.1 h; exact ⟨rfl, Nat.zero_le _⟩
    | noise => obtain ⟨-, rfl⟩ := execCreateN_next_iff.1 h; exact ⟨rfl, Nat.zero_le _⟩
  · cases g with
    | pulse => obtain ⟨-, rfl⟩ := execDestroyP_next_iff.1 h; exact ⟨rfl, Nat.zero_le _⟩
    | wave => obtain ⟨-, rfl⟩ := execDestroyW_next_iff.1 h; exact ⟨rfl, Nat.zero_le _⟩
    | noise => obtain ⟨-, rfl⟩ := execDestroyN_next_iff.1 h; exact ⟨rfl, Nat.zero_le _⟩

theorem exec_keeps_counterBounded (hP : s.parametersLegal) (hs : s.counterBounded g) (h : exec i s = .next t) :
    t.counterBounded g := by
  have hr := exec_sampleRate h
  rcases exec_gen_cases h g with hsame | hnew | hend | ⟨-, hb⟩ | ⟨F, d, rfl⟩
  · exact counterBounded_of_sameBeyondParams hs (sameBeyondParams_of_sameGen hsame) hr
  · exact (exec_createOf_or_destroyOf_reset (.inl hnew) h).2
  · exact (exec_createOf_or_destroyOf_reset (.inr hend) h).2
  · exact counterBounded_of_sameBeyondParams hs hb hr
  · obtain ⟨-, -, -, rfl⟩ := exec_renderOf_next_iff.1 h
    exact State.block_counterBounded (State.one_le_frequencyOf hP g) hs _ _

theorem State.reset_parametersLegal : State.reset.parametersLegal := by
  have htrigger : isTrigger 0 := .inl rfl
  have hunit : inUnit 0 := ⟨le_rfl, zero_le_one⟩
  have htone : isToneFrequency 1 := ⟨le_rfl, by norm_num⟩
  have hnoise : isNoiseFrequency 1 := ⟨le_rfl, by norm_num⟩
  intro r
  cases r with
  | pTrigger | wTrigger | nTrigger => exact decide_eq_true htrigger
  | pGain | pDutyCycle | wGain | nGain | nWidth => exact decide_eq_true hunit
  | pFrequency | wFrequency => exact decide_eq_true htone
  | nFrequency => exact decide_eq_true hnoise

theorem exec_keeps_parametersLegal (hs : s.parametersLegal) (hi : legalInstr i = true) (h : exec i s = .next t) :
    t.parametersLegal := by
  intro r
  rcases exec_sameParams_cases r.channel h with hsame | ⟨r', v, hset, hr'⟩ | hnew
  · rw [parRead_congr hsame]
    exact hs r
  · obtain ⟨-, rfl⟩ := (exec_setp_next_iff hset).1 h
    by_cases hr : r = r'
    · rw [hr, parRead_parWrite_same]
      exact (legalInstr_setp_iff hset).1 hi
    · rw [parRead_parWrite_other s r' r v hr]
      exact hs r
  · rw [parRead_congr (exec_createOf_or_destroyOf_reset hnew h).1]
    exact State.reset_parametersLegal r

end

/-- Settles O56: under the contract the operation that the step runs is legal, and each generator's counter and every
parameter register stand the step. -/
theorem contractKeepsBounds : Obligations.ContractKeepsBounds := by
  intro s t hP hq hb h
  rcases step_next_cases h with ⟨-, rfl⟩ | ⟨c, rest, i, hp, hd, hexec⟩
  · exact ⟨hP, hq, hb⟩
  · have hP' : (s.setPending rest).parametersLegal := fun r => by rw [parRead_setPending]; exact hP r
    have hi : legalInstr i = true := hq c (by rw [hp]; exact List.mem_cons_self) i hd
    refine ⟨exec_keeps_parametersLegal hP' hi hexec, fun c' hc' => hq c' ?_, ?_⟩
    · rw [exec_pending hexec] at hc'
      rw [hp]
      exact List.mem_cons_of_mem c hc'
    · have hb' : (s.setPending rest).countersBounded := hb
      exact State.countersBounded_iff.2 fun g =>
        exec_keeps_counterBounded hP' (State.countersBounded_iff.1 hb' g) hexec

/-- A fault of a step is the fault of a decoded operation. -/
theorem step_fault_cases {s : State} {e : Fault} (h : step s = .fault e) :
    ∃ c rest i, s.pending = c :: rest ∧ decode c = .ok i ∧ exec i (s.setPending rest) = .fault e := by
  rw [step_eq] at h
  cases hp : s.pending with
  | nil => simp [hp] at h
  | cons c rest =>
    cases hd : decode c with
    | error e => simp [hp, hd] at h
    | ok i => exact ⟨c, rest, i, rfl, hd, by simpa [hp, hd] using h⟩

/-- Settles O57: a fault needs a frequency that is not positive (`exec_fault_cases`), and a legal one is at least 1. -/
theorem contractNeverFaults : Obligations.ContractNeverFaults := by
  intro s hP e h
  obtain ⟨c, rest, i, -, -, hexec⟩ := step_fault_cases h
  obtain ⟨g, F, d, -, -, -, -, hf, -⟩ := exec_fault_cases hexec
  have hone := State.one_le_frequencyOf (s := s.setPending rest) (fun r => by rw [parRead_setPending]; exact hP r) g
  linarith

/-- Settles O58: the reset values are legal, the queue is empty and the counters are 0. -/
theorem contractAtReset : Obligations.ContractAtReset :=
  ⟨State.reset_parametersLegal, fun _ hc => absurd hc List.not_mem_nil,
    State.countersBounded_iff.2 State.reset_counterBounded⟩

end Sys2Proof.Machine
end

section
/-! 43_noise.md: LFSR.TICK in short mode (R176, R186), the long tick as a bijection (R185), and the lengths of the two cycles
(R184). -/

namespace Sys2Proof.Machine

variable {x y : ShiftReg} {i : Nat}

/-! ## The two ticks, bit by bit -/

/-- Settles O41: `tickLong_getLsbD` and `tickShort_getLsbD` differ in the case of bit 6. -/
theorem shortTickRule : Obligations.ShortTickRule := by
  intro x i _
  rw [tickShort_getLsbD, tickLong_getLsbD]
  by_cases h6 : i = 6
  · rw [if_pos (.inr h6), if_pos h6]
  · rw [if_neg h6]
    exact if_congr (or_iff_left h6) rfl rfl

/-- Settles O43: bit 6 and below of the short tick read bits 6 to 0 alone (`tickShort_getLsbD`). -/
theorem shortModeSevenBits : Obligations.ShortModeSevenBits := by
  intro x y h
  have hbit : ∀ j, j < 7 → x.getLsbD j = y.getLsbD j := by
    intro j hj
    have hj' := congrArg (fun z : BitVec 7 => z.getLsbD j) h
    simpa [hj] using hj'
  have hfb : feedback x = feedback y := by
    rw [feedback, feedback, hbit 0 (by decide), hbit 1 (by decide)]
  refine BitVec.eq_of_getLsbD_eq fun i hi => ?_
  simp only [BitVec.getLsbD_extractLsb', Nat.zero_add, decide_eq_true hi, Bool.true_and, tickShort_getLsbD, hfb]
  by_cases h6 : i = 6
  · rw [if_pos (.inr h6), if_pos (.inr h6)]
  · rw [if_neg (by omega), if_neg (by omega), hbit (i + 1) (by omega)]

/-! ## The long tick is a bijection -/

/-- The bits of a register above bit 0 are shifted, and the feedback then gives bit 0 back. -/
theorem tickLong_injective : Function.Injective tickLong := by
  intro x y h
  have hbit : ∀ j, j < 14 → x.getLsbD (j + 1) = y.getLsbD (j + 1) := by
    intro j hj
    rw [← tickLong_getLsbD_of_lt hj, h, tickLong_getLsbD_of_lt hj]
  have hfb : feedback x = feedback y := by rw [← tickLong_getLsbD_top, h, tickLong_getLsbD_top]
  refine BitVec.eq_of_getLsbD_eq fun i hi => ?_
  cases i with
  | succ j => exact hbit j (by omega)
  | zero =>
    rw [feedback, feedback, hbit 0 (by decide)] at hfb
    revert hfb
    cases x.getLsbD 0 <;> cases y.getLsbD 0 <;> cases y.getLsbD (0 + 1) <;> decide

theorem tickLong_eq_lockUp_iff : tickLong x = 0x7FFF ↔ x = 0x7FFF := by
  rw [← tickLong_injective.eq_iff (a := x), tickLong_lockUp]

/-- Settles O42: an injection of a finite type, with the fixed points `tickLong_lockUp` and `tickShort_lockUp`. -/
theorem longTickBijective : Obligations.LongTickBijective :=
  ⟨Finite.injective_iff_bijective.1 tickLong_injective, fun _ => tickLong_eq_lockUp_iff, tickShort_lockUp⟩

/-! ## The long cycle

On inverted registers the feedback is the XOR of the two lowest bits and the tick is additive, with `X^15 = X + 1` for its
polynomial. Squaring `X^16 = X^2 + X` again and again gives `X^(2^(k+4)) = X^(2^(k+1)) + X^(2^k)`, so that powers of two of
the tick are sums of a few ticks (`leap`), and `X^(2^15) = X`. -/

/-- The long tick of the inverted register. -/
def tickXor (y : ShiftReg) : ShiftReg := ~~~tickLong (~~~y)

theorem tickXor_getLsbD_of_lt (hi : i < 14) : (tickXor y).getLsbD i = y.getLsbD (i + 1) := by
  rw [tickXor, BitVec.getLsbD_not, tickLong_getLsbD_of_lt hi, BitVec.getLsbD_not]
  simp [hi, (by omega : i < 15)]

theorem tickXor_getLsbD_top : (tickXor y).getLsbD 14 = (y.getLsbD 0 ^^ y.getLsbD 1) := by
  rw [tickXor, BitVec.getLsbD_not, tickLong_getLsbD_top, feedback_eq_not_xor, BitVec.getLsbD_not, BitVec.getLsbD_not]
  simp

theorem tickXor_xor (x y : ShiftReg) : tickXor (x ^^^ y) = tickXor x ^^^ tickXor y := by
  refine BitVec.eq_of_getLsbD_eq fun i hi => ?_
  rcases Nat.lt_succ_iff_lt_or_eq.1 hi with hlow | rfl
  · simp only [BitVec.getLsbD_xor, tickXor_getLsbD_of_lt hlow]
  · simp only [BitVec.getLsbD_xor, tickXor_getLsbD_top]
    cases x.getLsbD 0 <;> cases y.getLsbD 0 <;> simp

theorem tickXor_iterate_xor (n : Nat) (x y : ShiftReg) :
    tickXor^[n] (x ^^^ y) = tickXor^[n] x ^^^ tickXor^[n] y := by
  induction n generalizing x y with
  | zero => rfl
  | succ n ih => simp only [Function.iterate_succ_apply, tickXor_xor, ih]

/-- Every bit comes down to bit 0. -/
theorem tickXor_iterate_getLsbD_zero (hi : i < 15) (y : ShiftReg) : (tickXor^[i] y).getLsbD 0 = y.getLsbD i := by
  induction i generalizing y with
  | zero => rfl
  | succ i ih => rw [Function.iterate_succ_apply, ih (by omega), tickXor_getLsbD_of_lt (by omega)]

/-- The polynomial of the tick: `X^15 = X + 1`. -/
theorem tickXor_iterate_fifteen (y : ShiftReg) : tickXor^[15] y = tickXor y ^^^ y := by
  have hzero : ∀ z, (tickXor^[15] z).getLsbD 0 = (tickXor z ^^^ z).getLsbD 0 := by
    intro z
    rw [Function.iterate_succ_apply, tickXor_iterate_getLsbD_zero (by decide), tickXor_getLsbD_top, BitVec.getLsbD_xor,
      tickXor_getLsbD_of_lt (by decide)]
    exact Bool.xor_comm _ _
  refine BitVec.eq_of_getLsbD_eq fun i hi => ?_
  rw [← tickXor_iterate_getLsbD_zero hi, ← Function.iterate_add_apply, Nat.add_comm i 15, Function.iterate_add_apply, hzero,
    ← tickXor_iterate_getLsbD_zero hi, tickXor_iterate_xor, ← Function.iterate_succ_apply' tickXor,
    Function.iterate_succ_apply]

/-- The polynomial squared `k` times. -/
theorem tickXor_iterate_two_pow (k : Nat) (y : ShiftReg) :
    tickXor^[2 ^ (k + 4)] y = tickXor^[2 ^ (k + 1)] y ^^^ tickXor^[2 ^ k] y := by
  induction k generalizing y with
  | zero => exact (tickXor_iterate_fifteen (tickXor y)).trans rfl
  | succ k ih =>
    have hdouble : ∀ m, tickXor^[2 ^ (m + 1)] y = tickXor^[2 ^ m] (tickXor^[2 ^ m] y) := by
      intro m
      rw [← Function.iterate_add_apply, ← two_mul, ← pow_succ']
    have hcomm : tickXor^[2 ^ (k + 1)] (tickXor^[2 ^ k] y) = tickXor^[2 ^ k] (tickXor^[2 ^ (k + 1)] y) :=
      (Function.Commute.refl tickXor).iterate_iterate _ _ y
    calc tickXor^[2 ^ (k + 4 + 1)] y
        = tickXor^[2 ^ (k + 4)] (tickXor^[2 ^ (k + 4)] y) := hdouble (k + 4)
      _ = (tickXor^[2 ^ (k + 1)] (tickXor^[2 ^ (k + 1)] y) ^^^ tickXor^[2 ^ k] (tickXor^[2 ^ (k + 1)] y)) ^^^
            (tickXor^[2 ^ k] (tickXor^[2 ^ (k + 1)] y) ^^^ tickXor^[2 ^ k] (tickXor^[2 ^ k] y)) := by
          simp only [ih, tickXor_iterate_xor, hcomm]
      _ = tickXor^[2 ^ (k + 1)] (tickXor^[2 ^ (k + 1)] y) ^^^ tickXor^[2 ^ k] (tickXor^[2 ^ k] y) := by
          rw [BitVec.xor_assoc, ← BitVec.xor_assoc (tickXor^[2 ^ k] (tickXor^[2 ^ (k + 1)] y)), BitVec.xor_self,
            BitVec.zero_xor]
      _ = tickXor^[2 ^ (k + 1 + 1)] y ^^^ tickXor^[2 ^ (k + 1)] y := by rw [← hdouble, ← hdouble]

/-- `2 ^ k` ticks, as a sum of a few. -/
def leap : Nat → ShiftReg → ShiftReg
  | 0, y => tickXor y
  | 1, y => tickXor^[2] y
  | 2, y => tickXor^[4] y
  | 3, y => tickXor^[8] y
  | k + 4, y => leap (k + 1) y ^^^ leap k y

theorem leap_eq (k : Nat) (y : ShiftReg) : leap k y = tickXor^[2 ^ k] y := by
  fun_induction leap k y with
  | case1 | case2 | case3 | case4 => rfl
  | case5 y k ih ih' => rw [ih, ih', tickXor_iterate_two_pow]

/-- `X^(2^15) = X`. -/
theorem leap_fifteen (y : ShiftReg) : leap 15 y = leap 0 y := by
  refine BitVec.eq_of_getLsbD_eq fun i _ => ?_
  simp only [leap, BitVec.getLsbD_xor]
  generalize (tickXor y).getLsbD i = b₀, (tickXor^[2] y).getLsbD i = b₁, (tickXor^[4] y).getLsbD i = b₂,
    (tickXor^[8] y).getLsbD i = b₃
  revert b₀ b₁ b₂ b₃
  decide

theorem tickLong_iterate (n : Nat) (x : ShiftReg) : tickLong^[n] x = ~~~tickXor^[n] (~~~x) := by
  induction n generalizing x with
  | zero => simp
  | succ n ih => rw [Function.iterate_succ_apply, ih, Function.iterate_succ_apply, tickXor, BitVec.not_not]

/-- The cycle closes: `2 ^ 15` ticks are one, and a tick can be taken back. -/
theorem tickLong_iterate_32767 (x : ShiftReg) : tickLong^[32767] x = x := by
  have hleap : tickLong^[2 ^ 15] x = tickLong x := by
    rw [tickLong_iterate, ← leap_eq, leap_fifteen, leap, tickXor, BitVec.not_not, BitVec.not_not]
  exact tickLong_injective ((Function.iterate_succ_apply' tickLong 32767 x).symm.trans hleap)

theorem tickXor_iterate_sum (ks : List Nat) (y : ShiftReg) :
    tickXor^[(ks.map (2 ^ ·)).sum] y = ks.foldr leap y := by
  induction ks with
  | nil => rfl
  | cons k ks ih => rw [List.map_cons, List.sum_cons, Function.iterate_add_apply, ih, List.foldr_cons, leap_eq]

theorem tickLong_iterate_zero_ne {ks : List Nat} (h : ks.foldr leap (~~~0) ≠ ~~~0) :
    tickLong^[(ks.map (2 ^ ·)).sum] 0 ≠ 0 := by
  rw [tickLong_iterate, tickXor_iterate_sum]
  exact fun h0 => h (BitVec.not_not.symm.trans (congrArg (~~~·) h0))

/-- A prime part of the cycle from 0, whose length is `7 * 31 * 151`, does not close. -/
theorem tickLong_not_periodic {p : Nat} (hp : p.Prime) (hdvd : p ∣ 32767) :
    ¬Function.IsPeriodicPt tickLong (32767 / p) 0 := by
  have hcases : p = 7 ∨ p = 31 ∨ p = 151 := by
    rw [show 32767 = 7 * (31 * 151) by norm_num, hp.dvd_mul, hp.dvd_mul, Nat.prime_dvd_prime_iff_eq hp (by norm_num),
      Nat.prime_dvd_prime_iff_eq hp (by norm_num), Nat.prime_dvd_prime_iff_eq hp (by norm_num)] at hdvd
    exact hdvd
  rcases hcases with rfl | rfl | rfl
  · exact tickLong_iterate_zero_ne (ks := [12, 9, 6, 3, 0]) (by decide +kernel)
  · exact tickLong_iterate_zero_ne (ks := [10, 5, 0]) (by decide +kernel)
  · exact tickLong_iterate_zero_ne (ks := [7, 6, 4, 3, 0]) (by decide +kernel)

theorem minimalPeriod_tickLong : Function.minimalPeriod tickLong 0 = 32767 := by
  have hdvd : Function.minimalPeriod tickLong 0 ∣ 32767 :=
    Function.IsPeriodicPt.minimalPeriod_dvd (tickLong_iterate_32767 0)
  by_contra hne
  obtain ⟨c, hc⟩ := hdvd
  have hc1 : c ≠ 1 := by
    rintro rfl
    omega
  obtain ⟨p, hp, q, rfl⟩ := Nat.exists_prime_and_dvd hc1
  refine tickLong_not_periodic hp ⟨Function.minimalPeriod tickLong 0 * q, by rw [hc]; ring⟩ ?_
  rw [Function.isPeriodicPt_iff_minimalPeriod_dvd]
  refine ⟨q, Nat.div_eq_of_eq_mul_left hp.pos ?_⟩
  rw [hc]
  ring

/-- Settles O44: the least period from 0 is 32767 (`minimalPeriod_tickLong`), and nothing but the lock-up value ticks to
it. -/
theorem longCycleLength : Obligations.LongCycleLength := by
  simp only [Obligations.LongCycleLength, ticks_eq_iterate]
  refine ⟨tickLong_iterate_32767 0, fun m n hmn hn heq => ?_, fun n => ?_⟩
  · rw [← minimalPeriod_tickLong] at hn
    exact hmn.ne ((Function.iterate_eq_iterate_iff_of_lt_minimalPeriod (hmn.trans hn) hn).1 heq)
  · induction n with
    | zero => decide
    | succ n ih => rwa [Function.iterate_succ_apply', Ne, tickLong_eq_lockUp_iff]

/-! ## The short cycle -/

/-- The spec's computation (43_noise.md R184). -/
theorem tickShort_iterate_127 : tickShort^[127] 0 = 0x0080 := by
  rw [← ticks_eq_iterate]
  decide +kernel

/-- The tick after those leads where the first one led. -/
theorem tickShort_iterate_add_127 {n : Nat} (hn : 1 ≤ n) : tickShort^[n + 127] 0 = tickShort^[n] 0 := by
  obtain ⟨k, rfl⟩ := Nat.exists_eq_add_of_le' hn
  have hclosed : tickShort 0x0080 = tickShort 0 := by decide
  rw [Function.iterate_add_apply, tickShort_iterate_127, Function.iterate_succ_apply, hclosed,
    Function.iterate_succ_apply]

/-- Were 0 on the cycle, 127 ticks would lead from it back to it. -/
theorem tickShort_iterate_ne_zero {n : Nat} (hn : 1 ≤ n) : tickShort^[n] 0 ≠ 0 := by
  intro h0
  have hback := tickShort_iterate_add_127 hn
  rw [Nat.add_comm, Function.iterate_add_apply, h0, tickShort_iterate_127] at hback
  exact absurd hback (by decide)

/-- Bit 0 of the short sequence, from the first tick on. -/
def shortBit (n : Nat) : Bool := (tickShort^[n + 1] 0).getLsbD 0

theorem shortBit_periodic : Function.Periodic shortBit 127 := fun n =>
  congrArg (BitVec.getLsbD · 0) (tickShort_iterate_add_127 (Nat.le_add_left 1 n) :
    tickShort^[n + 1 + 127] 0 = tickShort^[n + 1] 0)

/-- 127 is prime, so that a period below it would make bit 0 the same everywhere. -/
theorem shortBit_period_ge {q : Nat} (hq : 0 < q) (h : Function.Periodic shortBit q) : 127 ≤ q := by
  by_contra hlt
  have hcop : Nat.Coprime q 127 :=
    (Nat.coprime_of_lt_prime hq.ne' (Nat.not_le.1 hlt) (by norm_num)).symm
  obtain ⟨m, -, hm⟩ := Nat.exists_mul_mod_eq_of_coprime 6 hcop (by decide)
  have hsame : shortBit 6 = shortBit 0 :=
    calc shortBit 6 = shortBit (q * m % 127) := by rw [hm]
      _ = shortBit (m * q) := by rw [shortBit_periodic.map_mod_nat, Nat.mul_comm]
      _ = shortBit 0 := h.nat_mul_eq m
  simp [shortBit, tickShort, feedback] at hsame

/-- Settles O45: 127 ticks close the cycle that the first tick enters, and bit 0 has no period below (`shortBit_period_ge`). -/
theorem shortCycleLength : Obligations.ShortCycleLength := by
  simp only [Obligations.ShortCycleLength, ticks_eq_iterate]
  refine ⟨fun n hn => ⟨tickShort_iterate_add_127 hn, tickShort_iterate_ne_zero hn⟩, fun q hq h => ?_⟩
  refine shortBit_period_ge hq fun n => ?_
  rw [shortBit, Nat.add_right_comm]
  exact h (n + 1) (Nat.le_add_left 1 n)

end Sys2Proof.Machine
end
